-- ==== Sys2Proof/Word.lean ====
section
/-! DEFINITION. The machine's two data types (00_scope.md R7, R10): the 32-bit word and the I/O byte. -/

namespace Sys2Proof

/-- A word: "a 32-bit unsigned quantity, the machine's fundamental addressable unit" (00_scope.md R7, R13).
Registers, segment identifiers, offsets and the program counter are words (R10). -/
abbrev Word := BitVec 32

/-- The unit of the I/O device (00_scope.md R7; 46_io.md R185). -/
abbrev Byte := BitVec 8

end Sys2Proof
end

