-- ==== Sys2Proof/Config.lean ====
section
/-! DEFINITION. The parameters of table R8 (00_scope.md) that an implementation chooses, and the free value
behind an identifier draw. A configuration is plain data that State carries and no instruction changes, so a
statement about all states is about all configurations (log 3). -/

namespace Sys2Proof

/-- `alloc_policy` (R8, decision D5): which unused identifier `Alloc` returns. -/
inductive AllocPolicy where
  /-- a draw: any unused identifier, under no law -/
  | any
  /-- the most recently freed identifier first, else the smallest one never handed out -/
  | lifo
deriving DecidableEq, Repr

/-- `eof_policy` (R8, decision D9): what IN does at end of input. -/
inductive EofPolicy where
  /-- the destination becomes 0xFFFFFFFF and the run goes on -/
  | allOnes
  /-- IN raises `InputExhausted` -/
  | fault
deriving DecidableEq, Repr

/-- A range of segment identifiers, both ends included. -/
structure IdRange where
  lo : Word
  hi : Word
deriving DecidableEq, Repr

/-- The open parameters of table R8. `ID_SPACE` is the union of the ranges of `idSpace`, less 0 (log 4). -/
structure Config where
  allocPolicy : AllocPolicy
  eofPolicy   : EofPolicy
  idSpace     : List IdRange
deriving DecidableEq, Repr

/-- The default `ID_SPACE` of table R8: all of 1 .. 2^32 − 1. -/
def Config.fullIdSpace : List IdRange := [⟨1, 0xFFFFFFFF⟩]

/-- The configuration `State.reset` carries: the defaults of table R8, `alloc_policy` as for proofs
(DESIGN CHOICE, log 3). -/
def Config.default : Config := ⟨.any, .allOnes, Config.fullIdSpace⟩

/-- The free value of an identifier draw (R58 "a draw: any member of `U`, under no law"): the n-th raw draw
of a run. It has no body: nothing can be proved of its values (DESIGN CHOICE, log 5). -/
opaque Config.freeIdentifier : Nat → Word

end Sys2Proof
end

