-- ==== Sys2Proof/Syntax.lean ====
section
/-! DEFINITION. The fourteen instructions (00_scope.md R2; 30_encoding.md R98), one constructor per row of the
opcode table, operands in the field order of R102. -/

namespace Sys2Proof

/-- The index of a general register: every value 0 .. 7 of a 3-bit field names one (10_state.md R20, R97). -/
abbrev Reg := Fin 8

/-- An instruction. The opcode of each is its position, counted from 0 (R98, decision D1). -/
inductive Instr where
  /-- 0, Conditional Move (R141): `CMOV ra, rb, rc` -/
  | cmov (a b c : Reg)
  /-- 1, Segmented Load (R146): `SLOAD ra, rb, rc` -/
  | sload (a b c : Reg)
  /-- 2, Segmented Store (R147): `SSTORE ra, rb, rc` -/
  | sstore (a b c : Reg)
  /-- 3, Addition (R156): `ADD ra, rb, rc` -/
  | add (a b c : Reg)
  /-- 4, Multiplication (R157): `MUL ra, rb, rc` -/
  | mul (a b c : Reg)
  /-- 5, Division (R158): `DIV ra, rb, rc` -/
  | div (a b c : Reg)
  /-- 6, Bitwise NAND (R159): `NAND ra, rb, rc` -/
  | nand (a b c : Reg)
  /-- 7, Halt (R171): `HALT` -/
  | halt
  /-- 8, Map Segment (R176): `MAP rb, rc` -/
  | map (b c : Reg)
  /-- 9, Unmap Segment (R178): `UNMAP rc` -/
  | unmap (c : Reg)
  /-- 10, Output (R187): `OUT rc` -/
  | out (c : Reg)
  /-- 11, Input (R190): `IN rc` -/
  | inp (c : Reg)
  /-- 12, Load Program (R201): `LOADP rb, rc` -/
  | loadp (b c : Reg)
  /-- 13, Load Value (R211): `LOADV rl, imm`; `imm` is the literal as an assembler is given it, an instruction
  only when it fits 25 bits (`Instr.WellFormed`, R103; log 15) -/
  | loadv (rl : Reg) (imm : Word)
deriving DecidableEq, Repr

end Sys2Proof
end

