-- ==== Sys2Proof/Machine/State.lean ====
section
/-! DEFINITION. The machine's state as plain data (00_scope.md R16; 10_state.md), its fault kinds and run state, the
two reasons a step can be absent, and the state after reset. -/

namespace Sys2Proof.Machine

/-- The fault kinds of table R221 (60_exceptions.md). A fault is a state of the machine, not an outcome of the step:
`raise K` gives the next state with the run state `faulted K` (R230). -/
inductive FaultKind where
  /-- the fetched word's opcode is 14 or 15 -/
  | invalidOpcode
  /-- SLOAD, SSTORE, UNMAP or LOADP names an identifier that is not mapped -/
  | unmappedSegmentAccess
  /-- SLOAD or SSTORE at an offset not below the length; fetch when the pc is above the program's length -/
  | outOfBoundsOffset
  /-- DIV by 0 -/
  | divisionByZero
  /-- OUT of a value above 255 -/
  | outputOverflow
  /-- MAP when every member of `ID_SPACE` is mapped -/
  | segmentSpaceExhausted
  /-- UNMAP of identifier 0 -/
  | freeOfSegmentZero
  /-- IN at end of input under `eof_policy = fault` -/
  | inputExhausted
deriving DecidableEq, Repr

/-- The run state, the only status register (10_state.md R27). -/
inductive RunState where
  | running
  | halted
  | faulted (kind : FaultKind)
deriving DecidableEq, Repr

/-- The register file: "eight independent 32-bit unsigned slots" (10_state.md R20, R21). Read and written through
`RegFile.get` and `RegFile.set` only. -/
structure RegFile where
  x0 : Word
  x1 : Word
  x2 : Word
  x3 : Word
  x4 : Word
  x5 : Word
  x6 : Word
  x7 : Word
deriving DecidableEq, Repr

/-- A segment: a sequence of `len` words, its length fixed at creation (10_state.md R32; 20_memory.md R52). Only the
words that are not 0 are listed, by rising offset (log 1). -/
structure Segment where
  len   : Word
  cells : List (Nat × Word)
deriving DecidableEq, Repr

/-- The memory map `M` (10_state.md R32): segment 0, which is always mapped (R33; log 2), and the other mapped segments
by rising identifier. -/
structure Memory where
  program : Segment
  segs    : List (Nat × Segment)
deriving DecidableEq, Repr

/-- The allocator's bookkeeping under `alloc_policy = lifo` (10_state.md R34; 20_memory.md R59): the identifiers freed
and not yet reused, most recent first, and the identifiers ever handed out. -/
structure Allocator where
  freed : List Word
  used  : List Word
deriving DecidableEq, Repr

/-- The input stream (10_state.md R35; 46_io.md R189): the bytes the device has delivered, whether end of input stands
after them, the position of the next unread byte, and whether end of input has been signalled to the engine. -/
structure InputStream where
  bytes   : List Byte
  closed  : Bool
  pos     : Nat
  eofSeen : Bool
deriving DecidableEq, Repr

/-- Everything a step can read or write. -/
structure State where
  /-- the eight general registers (R20) -/
  regs      : RegFile
  /-- the program counter: a word offset into segment 0 (R24) -/
  pc        : Word
  /-- the run state (R27) -/
  run       : RunState
  /-- the segmented memory (R32) -/
  mem       : Memory
  /-- the allocator's bookkeeping (R34) -/
  allocator : Allocator
  /-- the input stream (R35) -/
  input     : InputStream
  /-- the bytes written so far, oldest first (R35) -/
  output    : List Byte
  /-- the parameters of table R8; no instruction changes them (log 3) -/
  cfg       : Config
  /-- the model's own counter of identifier draws (log 6) -/
  draws     : Nat
deriving DecidableEq, Repr

/-- Why no step exists. Both are the spec's terminal states (10_state.md R28: "in either, the engine fetches nothing,
executes nothing"; 40_execution_cycle.md R128). No instruction answers one: a faulting instruction answers the next state
whose run state is `faulted`. -/
inductive Fault where
  /-- Answered by `step` when the run state is `halted`. Safe: the spec gives no step there. -/
  | noStepHalted
  /-- Answered by `step` when the run state is `faulted kind`. Safe: the spec gives no step there. -/
  | noStepFaulted (kind : FaultKind)
deriving DecidableEq, Repr

/-- Why the model gives an instruction no meaning. No arm of `exec` answers one. -/
inductive Refusal where
  /-- Kept for an arm of `exec` without a meaning; there is none. Safe. -/
  | notModelled (mnemonic : String)
deriving DecidableEq, Repr

/-- What one step or one instruction answers. -/
abbrev Result := Host.Outcome State Fault Refusal

/-- A segment with no words. -/
def Segment.empty : Segment := ⟨0, []⟩

/-- The state right after reset (10_state.md R45) with nothing loaded: every register 0, the pc 0, `Running`, only
segment 0 mapped and of length 0 (a loader's program is placed by `State.boot`; log 13), the bookkeeping empty, the
streams at their start. The configuration is table R8's defaults (log 3); the input stream is the empty one, with end of
input after its last byte (log 10). -/
def State.reset : State where
  regs      := ⟨0, 0, 0, 0, 0, 0, 0, 0⟩
  pc        := 0
  run       := .running
  mem       := ⟨Segment.empty, []⟩
  allocator := ⟨[], []⟩
  input     := ⟨[], true, 0, false⟩
  output    := []
  cfg       := Config.default
  draws     := 0

end Sys2Proof.Machine
end

