-- ==== Sys2Proof/Machine/Cells.lean ====
section
/-! DEFINITION. Finite maps with natural-number keys as lists of (key, value) pairs by rising key: the shape of a
segment's words and of the memory map (log 1). -/

namespace Sys2Proof.Machine

/-- The value listed under a key. -/
def Cells.find? {α : Type} (l : List (Nat × α)) (k : Nat) : Option α :=
  match l with
  | [] => none
  | (j, v) :: rest => if k = j then some v else find? rest k

/-- List `v` under `k`, in its place, instead of whatever stood there. -/
def Cells.insert {α : Type} (l : List (Nat × α)) (k : Nat) (v : α) : List (Nat × α) :=
  match l with
  | [] => [(k, v)]
  | (j, u) :: rest =>
    if k = j then (k, v) :: rest
    else if k < j then (k, v) :: (j, u) :: rest
    else (j, u) :: insert rest k v

/-- Remove what is listed under `k`. -/
def Cells.erase {α : Type} (l : List (Nat × α)) (k : Nat) : List (Nat × α) :=
  match l with
  | [] => []
  | (j, u) :: rest => if k = j then erase rest k else (j, u) :: erase rest k

/-- The keys, in order. -/
def Cells.keys {α : Type} (l : List (Nat × α)) : List Nat := l.map (·.1)

/-- The keys rise strictly, so no key is listed twice. -/
abbrev Cells.Rising {α : Type} (l : List (Nat × α)) : Prop := l.Pairwise (fun p q => p.1 < q.1)

end Sys2Proof.Machine
end

