-- ==== Sys2Proof/Machine/Memory.lean ====
section
/-! DEFINITION. The segmented memory (20_memory.md R50 to R64): segments, the canonical form of a memory, and the
operations MemRead, MemWrite, Free, LoadProgram and ProgLen. Alloc's choice of identifier is in
Machine/Allocation.lean. -/

namespace Sys2Proof.Machine

/-- Word `off` of a segment: an unlisted word is 0, which every word is on allocation (R58). -/
def Segment.word (g : Segment) (off : Word) : Word := (Cells.find? g.cells off.toNat).getD 0#32

/-- The segment with word `off` set to `v`; a 0 is not listed. -/
def Segment.setWord (g : Segment) (off v : Word) : Segment :=
  { g with cells := if v = 0#32 then Cells.erase g.cells off.toNat else Cells.insert g.cells off.toNat v }

/-- A new segment of `n` words, all 0 (R58). -/
def Segment.zeros (n : Word) : Segment := ⟨n, []⟩

/-- The cells of a list of words, the first at offset `start`. -/
def Segment.cellsFrom : List Word → Nat → List (Nat × Word)
  | [], _ => []
  | w :: rest, start =>
    if w = 0#32 then cellsFrom rest (start + 1) else (start, w) :: cellsFrom rest (start + 1)

/-- The segment that holds a list of words in order. -/
def Segment.ofWords (ws : List Word) : Segment := ⟨BitVec.ofNat 32 ws.length, Segment.cellsFrom ws 0⟩

/-- The canonical form of a segment: offsets rise, all below the length, no 0 listed. -/
abbrev Segment.wf (g : Segment) : Prop :=
  Cells.Rising g.cells ∧ ∀ c ∈ g.cells, c.1 < g.len.toNat ∧ c.2 ≠ 0#32

/-- The canonical form of a memory: identifiers rise, each in 1 .. 2^32 − 1, and every segment is canonical. Two
canonical memories that read alike are equal. -/
abbrev Memory.wf (m : Memory) : Prop :=
  m.program.wf ∧ Cells.Rising m.segs ∧ ∀ e ∈ m.segs, 0 < e.1 ∧ e.1 < 2 ^ 32 ∧ e.2.wf

/-- The segment mapped under an identifier, if one is. -/
def Memory.seg? (m : Memory) (id : Word) : Option Segment :=
  if id = 0#32 then some m.program else Cells.find? m.segs id.toNat

/-- `mapped(id)` (R51). -/
def Memory.mapped (m : Memory) (id : Word) : Bool := (m.seg? id).isSome

/-- `len(id)` of a mapped identifier (R52). -/
def Memory.len? (m : Memory) (id : Word) : Option Word := (m.seg? id).map Segment.len

/-- The mapped identifiers other than 0. -/
def Memory.ids (m : Memory) : List Nat := Cells.keys m.segs

/-- The memory with `g` under `id`. -/
def Memory.setSeg (m : Memory) (id : Word) (g : Segment) : Memory :=
  if id = 0#32 then { m with program := g } else { m with segs := Cells.insert m.segs id.toNat g }

/-- `ProgLen()`, the word count of segment 0 (R63). -/
def Memory.progLen (m : Memory) : Word := m.program.len

/-- `MemRead(id, off)` (R56): the mapped check first, then the bound (conflict C2: `off >= len` faults). -/
def Memory.read (m : Memory) (id off : Word) : Except FaultKind Word :=
  match m.seg? id with
  | none => .error .unmappedSegmentAccess
  | some g => if off < g.len then .ok (g.word off) else .error .outOfBoundsOffset

/-- `MemWrite(id, off, v)` (R57), with the same two checks. -/
def Memory.write (m : Memory) (id off v : Word) : Except FaultKind Memory :=
  match m.seg? id with
  | none => .error .unmappedSegmentAccess
  | some g => if off < g.len then .ok (m.setSeg id (g.setWord off v)) else .error .outOfBoundsOffset

/-- The part of `Free(id)` that changes the memory (R60): the zero check first, then the mapped check. -/
def Memory.free (m : Memory) (id : Word) : Except FaultKind Memory :=
  if id = 0#32 then .error .freeOfSegmentZero
  else if m.mapped id then .ok { m with segs := Cells.erase m.segs id.toNat }
  else .error .unmappedSegmentAccess

/-- `LoadProgram(id)` (R62): segment 0 becomes a copy of segment `id`. -/
def Memory.loadProgram (m : Memory) (id : Word) : Except FaultKind Memory :=
  match m.seg? id with
  | none => .error .unmappedSegmentAccess
  | some g => .ok { m with program := g }

end Sys2Proof.Machine
end

