-- ==== Sys2Proof/Machine/Allocation.lean ====
section
/-! DEFINITION. Alloc and Free with the allocator's bookkeeping (20_memory.md R58 to R61; 45_segment_management.md
R180): which identifier a MAP gets under either policy. -/

namespace Sys2Proof.Machine

/-- Whether an identifier is in a range of `ID_SPACE`, which never contains 0 (00_scope.md R8). -/
def idInRange (r : IdRange) (i : Nat) : Bool := decide (0 < i ∧ r.lo.toNat ≤ i ∧ i ≤ r.hi.toNat)

/-- Whether an identifier is a member of `ID_SPACE`. -/
def idInSpace (space : List IdRange) (i : Nat) : Bool := space.any (idInRange · i)

/-- The smallest number from `cand` to `hi` that is not in `taken`. `fuel` above the length of `taken` is enough. -/
def scanUntaken (hi : Nat) : Nat → Nat → List Nat → Option Nat
  | 0, _, _ => none
  | fuel + 1, cand, taken =>
    if hi < cand then none
    else if cand ∈ taken then scanUntaken hi fuel (cand + 1) (taken.filter (· ≠ cand))
    else some cand

/-- The smaller of two numbers that may be absent. -/
def minOption : Option Nat → Option Nat → Option Nat
  | none, b => b
  | a, none => a
  | some a, some b => some (min a b)

/-- The smallest member of `ID_SPACE` that is at least `start` and not in `taken`. -/
def smallestUntaken (space : List IdRange) (taken : List Nat) (start : Nat) : Option Nat :=
  match space with
  | [] => none
  | r :: rest =>
    minOption (scanUntaken r.hi.toNat (taken.length + 1) (max (max r.lo.toNat 1) start) taken)
      (smallestUntaken rest taken start)

/-- Membership in the set `U` of R58: in `ID_SPACE` and not mapped. -/
def State.allocatable (s : State) (id : Word) : Bool :=
  idInSpace s.cfg.idSpace id.toNat && !s.mem.mapped id

/-- `alloc_policy = any` (R58): the member of `U` that the raw draw `draw` selects: the next one at or above it, or the
smallest. Every member is selected by some draw (itself), and nothing but a member ever is (log 5). -/
def State.drawnIdentifier (s : State) (draw : Word) : Option Word :=
  match smallestUntaken s.cfg.idSpace s.mem.ids 0 with
  | none => none
  | some least =>
    some (BitVec.ofNat 32 ((smallestUntaken s.cfg.idSpace s.mem.ids draw.toNat).getD least))

/-- `alloc_policy = lifo` (R59): the top of `freed`, popped, or else the smallest member of `ID_SPACE` not in `used`,
added to it. -/
def State.lifoIdentifier (s : State) : Option (Word × Allocator) :=
  match s.allocator.freed with
  | id :: rest => some (id, { s.allocator with freed := rest })
  | [] =>
    match smallestUntaken s.cfg.idSpace (s.allocator.used.map BitVec.toNat) 0 with
    | none => none
    | some i => some (BitVec.ofNat 32 i, { s.allocator with used := BitVec.ofNat 32 i :: s.allocator.used })

/-- Alloc (R58) with a given raw draw: the identifier, and the state with a new segment of `n` zeros under it. -/
def State.allocWithDraw (s : State) (n draw : Word) : Except FaultKind (Word × State) :=
  match s.cfg.allocPolicy with
  | .any =>
    match s.drawnIdentifier draw with
    | none => .error .segmentSpaceExhausted
    | some id => .ok (id, { s with mem := s.mem.setSeg id (Segment.zeros n), draws := s.draws + 1 })
  | .lifo =>
    match s.lifoIdentifier with
    | none => .error .segmentSpaceExhausted
    | some (id, book) => .ok (id, { s with mem := s.mem.setSeg id (Segment.zeros n), allocator := book })

/-- `Alloc(n)` (R58): the raw draw is the free value numbered by the draw counter (log 5). -/
def State.alloc (s : State) (n : Word) : Except FaultKind (Word × State) :=
  s.allocWithDraw n (Config.freeIdentifier s.draws)

/-- `Free(id)` (R60), which under `lifo` pushes the identifier on `freed` (R59) and under `any` keeps nothing (R34). -/
def State.free (s : State) (id : Word) : Except FaultKind State :=
  match s.mem.free id with
  | .error k => .error k
  | .ok m =>
    match s.cfg.allocPolicy with
    | .any => .ok { s with mem := m }
    | .lifo => .ok { s with mem := m, allocator := { s.allocator with freed := id :: s.allocator.freed } }

end Sys2Proof.Machine
end

