-- ==== Sys2Proof/Machine/Device.lean ====
section
/-! DEFINITION. The I/O device (46_io.md R185 to R192): what IN finds in the input stream, what OUT does to the output
stream, and what the device does between steps. -/

namespace Sys2Proof.Machine

/-- The three answers of `InByte()` (R189). -/
inductive InputAnswer where
  /-- the next byte -/
  | byte (b : Byte)
  /-- end of input -/
  | eof
  /-- neither is known yet: the call does not return -/
  | hold
deriving DecidableEq, Repr

/-- What `InByte()` answers (R189). End of input, once signalled, is answered for ever. -/
def InputStream.poll (i : InputStream) : InputAnswer :=
  if i.eofSeen then .eof
  else
    match i.bytes[i.pos]? with
    | some b => .byte b
    | none => if i.closed then .eof else .hold

/-- The stream after `InByte()` returned a byte: that byte is consumed. -/
def InputStream.consume (i : InputStream) : InputStream := { i with pos := i.pos + 1 }

/-- The stream after `InByte()` returned end of input: it stays signalled (10_state.md R35). -/
def InputStream.signalEof (i : InputStream) : InputStream := { i with eofSeen := true }

/-- `OutByte(v)` (R186): the byte is appended to the output stream; it always succeeds. -/
def State.outByte (s : State) (b : Byte) : State := { s with output := s.output ++ [b] }

/-- Between steps, the device delivers one more byte (R191); a device that has signalled end of input delivers nothing. -/
def State.deliver (s : State) (b : Byte) : State :=
  if s.input.closed then s else { s with input := { s.input with bytes := s.input.bytes ++ [b] } }

/-- Between steps, the device signals end of input (R191). -/
def State.closeInput (s : State) : State := { s with input := { s.input with closed := true } }

end Sys2Proof.Machine
end

