-- ==== Sys2Proof/Machine/Operands.lean ====
section
/-! DEFINITION. The operand forms: a general register (10_state.md R20, R21, R97), the 25-bit immediate (30_encoding.md
R96), the address pair (42_segmented_load_store.md R145) and the byte of a register (20_memory.md R71). -/

namespace Sys2Proof.Machine

/-- The value of register `r` (R20). -/
def RegFile.get (f : RegFile) (r : Reg) : Word :=
  match r with
  | 0 => f.x0
  | 1 => f.x1
  | 2 => f.x2
  | 3 => f.x3
  | 4 => f.x4
  | 5 => f.x5
  | 6 => f.x6
  | 7 => f.x7

/-- The register file with the whole of register `r` replaced by `v` (R21). -/
def RegFile.set (f : RegFile) (r : Reg) (v : Word) : RegFile :=
  match r with
  | 0 => { f with x0 := v }
  | 1 => { f with x1 := v }
  | 2 => { f with x2 := v }
  | 3 => { f with x3 := v }
  | 4 => { f with x4 := v }
  | 5 => { f with x5 := v }
  | 6 => { f with x6 := v }
  | 7 => { f with x7 := v }

/-- `x[r]`. -/
def State.x (s : State) (r : Reg) : Word := s.regs.get r

/-- `x[r] <- v`. No register is special (R22). -/
def State.setX (s : State) (r : Reg) (v : Word) : State := { s with regs := s.regs.set r v }

/-- `zext_32(imm)` of a 25-bit immediate: bits 31:25 of the value are 0 (R96). -/
def zextImmediate (imm : Word) : Word := (imm.setWidth 25).setWidth 32

/-- `zext_32(b)` of an input byte (R190). -/
def zextByte (b : Byte) : Word := b.setWidth 32

/-- The low 8 bits of a word, the datum of OUT (R187). -/
def lowByte (v : Word) : Byte := v.setWidth 8

/-- The address of SLOAD: identifier `x[b]`, offset `x[c]`, each taken whole (R145). -/
def State.loadAddress (s : State) (b c : Reg) : Word × Word := (s.x b, s.x c)

/-- The address of SSTORE: identifier `x[a]`, offset `x[b]` (R145). -/
def State.storeAddress (s : State) (a b : Reg) : Word × Word := (s.x a, s.x b)

end Sys2Proof.Machine
end

