-- ==== Sys2Proof/Machine/Flags.lean ====
section
/-! DEFINITION. There is no flag register (10_state.md R30). What the spec has instead: the ALU's two condition outputs,
computed and consumed in one step (43_alu.md R165), and the status port that shows the run state outside the block
(10_state.md R29; 60_exceptions.md R222). -/

namespace Sys2Proof.Machine

/-- `c_nz`: `x[c] != 0`, the condition of CMOV and, negated, the fault test of DIV. -/
def State.cNz (s : State) (c : Reg) : Bool := decide (s.x c ≠ 0#32)

/-- `c_gt255`: `x[c] > 255`, the fault test of OUT. -/
def State.cGt255 (s : State) (c : Reg) : Bool := decide (255#32 < s.x c)

/-- The cause code of a fault kind (R222). -/
def FaultKind.code : FaultKind → BitVec 4
  | .invalidOpcode => 1
  | .unmappedSegmentAccess => 2
  | .outOfBoundsOffset => 3
  | .divisionByZero => 4
  | .outputOverflow => 5
  | .segmentSpaceExhausted => 6
  | .freeOfSegmentZero => 7
  | .inputExhausted => 8

/-- `run_state[1:0]` of the status port (R29). -/
def RunState.statusCode : RunState → BitVec 2
  | .running => 0
  | .halted => 1
  | .faulted _ => 2

/-- `fault_code[3:0]` of the status port: the cause code when faulted, else 0 (R29). -/
def RunState.faultCode : RunState → BitVec 4
  | .running => 0
  | .halted => 0
  | .faulted k => k.code

end Sys2Proof.Machine
end

