-- ==== Sys2Proof/Machine/Ops.lean ====
section
/-! DEFINITION. The shared ends of an instruction: raising a fault, which is the whole of this machine's exception entry
(60_exceptions.md R230), halting, advancing or loading the pc (40_execution_cycle.md R125). There is no return from a
fault and no instruction that would do one (R234): only reset leaves a terminal state (Machine/Boot.lean). -/

namespace Sys2Proof.Machine

/-- `raise K`: the run state becomes `faulted K` and nothing else changes: no saved pc, no handler, no mode (R230, R231,
R224). -/
def State.raise (s : State) (k : FaultKind) : State := { s with run := .faulted k }

/-- `run <- Halted` (R27, R171). -/
def State.halt (s : State) : State := { s with run := .halted }

/-- `pc <- pc + 1` (R125). -/
def State.advance (s : State) : State := { s with pc := s.pc + 1#32 }

/-- `pc <- t` (R201). -/
def State.jump (s : State) (t : Word) : State := { s with pc := t }

/-- The state with another memory. -/
def State.withMem (s : State) (m : Memory) : State := { s with mem := m }

/-- The state with another input stream. -/
def State.withInput (s : State) (i : InputStream) : State := { s with input := i }

/-- The end of an instruction whose operation may fault: the fault leaves everything as it was (R231), else the pc
advances. -/
def State.complete (s : State) (r : Except FaultKind State) : Result :=
  match r with
  | .error k => .next (s.raise k)
  | .ok t => .next t.advance

end Sys2Proof.Machine
end

