-- ==== Sys2Proof/Machine/Alu.lean ====
section
/-! DEFINITION. The arithmetic unit and its four instructions ADD, MUL, DIV, NAND (43_alu.md). All arithmetic is
unsigned and keeps the low 32 bits (R155). -/

namespace Sys2Proof.Machine

/-- The sum modulo 2^32 (R156). -/
def aluAdd (u v : Word) : Word := u + v

/-- The product modulo 2^32 (R157). -/
def aluMul (u v : Word) : Word := u * v

/-- The unsigned quotient of a divisor that is not 0 (R158). -/
def aluDiv (u v : Word) : Word := u / v

/-- The complement of the bitwise conjunction (R159). -/
def aluNand (u v : Word) : Word := ~~~(u &&& v)

/-- ADD (R156): `x[a] <- (x[b] + x[c]) mod 2^32`; `pc <- pc + 1`. -/
def execAdd (a b c : Reg) (s : State) : Result :=
  .next (s.setX a (aluAdd (s.x b) (s.x c))).advance

/-- MUL (R157): `x[a] <- (x[b] * x[c]) mod 2^32`; `pc <- pc + 1`. -/
def execMul (a b c : Reg) (s : State) : Result :=
  .next (s.setX a (aluMul (s.x b) (s.x c))).advance

/-- DIV (R158): `if x[c] = 0 then raise DivisionByZero`; `x[a] <- floor(x[b] / x[c])`; `pc <- pc + 1`. -/
def execDiv (a b c : Reg) (s : State) : Result :=
  s.complete (if s.cNz c then .ok (s.setX a (aluDiv (s.x b) (s.x c))) else .error .divisionByZero)

/-- NAND (R159): `x[a] <- NOT (x[b] AND x[c])`; `pc <- pc + 1`. -/
def execNand (a b c : Reg) (s : State) : Result :=
  .next (s.setX a (aluNand (s.x b) (s.x c))).advance

end Sys2Proof.Machine
end

