-- ==== Sys2Proof/Machine/Control.lean ====
section
/-! DEFINITION. HALT (44_halt.md) and LOADP (47_load_program.md), the two instructions that do not advance the pc
(40_execution_cycle.md R125). -/

namespace Sys2Proof.Machine

/-- HALT (R171): `run <- Halted`; the pc keeps the offset of the HALT word. -/
def execHalt (s : State) : Result := .next s.halt

/-- LOADP (R201): `id <- x[b]`; `t <- x[c]`; `LoadProgram(id)`; `pc <- t`. The target is not checked here. -/
def execLoadp (b c : Reg) (s : State) : Result :=
  match s.mem.loadProgram (s.x b) with
  | .error k => .next (s.raise k)
  | .ok m => .next ((s.withMem m).jump (s.x c))

end Sys2Proof.Machine
end

