-- ==== Sys2Proof/Machine/InOut.lean ====
section
/-! DEFINITION. OUT and IN (46_io.md). -/

namespace Sys2Proof.Machine

/-- OUT (R187): `if x[c] > 255 then raise OutputOverflow`; `OutByte(x[c])`; `pc <- pc + 1`. -/
def execOut (c : Reg) (s : State) : Result :=
  s.complete (if s.cGt255 c then .error .outputOverflow else .ok (s.outByte (lowByte (s.x c))))

/-- IN (R190, R192): a byte goes zero-extended into `x[c]`; at end of input `x[c]` becomes 0xFFFFFFFF or the step faults,
as `eof_policy` says. While the device has neither (R191) the instruction is not executed: the next state is the same
state, the pc still at the IN and the run state still `Running` (log 9). -/
def execIn (c : Reg) (s : State) : Result :=
  match s.input.poll with
  | .byte b => .next ((s.setX c (zextByte b)).withInput s.input.consume).advance
  | .eof =>
    match s.cfg.eofPolicy with
    | .allOnes => .next ((s.setX c 0xFFFFFFFF#32).withInput s.input.signalEof).advance
    | .fault => .next (s.raise .inputExhausted)
  | .hold => .next s

end Sys2Proof.Machine
end

