-- ==== Sys2Proof/Machine/Move.lean ====
section
/-! DEFINITION. CMOV (41_conditional_move.md) and LOADV (48_load_value.md). -/

namespace Sys2Proof.Machine

/-- CMOV (R141): `if x[c] != 0 then x[a] <- x[b]`; `pc <- pc + 1` in both cases. -/
def execCmov (a b c : Reg) (s : State) : Result :=
  .next (if s.cNz c then s.setX a (s.x b) else s).advance

/-- LOADV (R211): `x[rl] <- zext_32(imm)`; `pc <- pc + 1`. -/
def execLoadv (rl : Reg) (imm : Word) (s : State) : Result :=
  .next (s.setX rl (zextImmediate imm)).advance

end Sys2Proof.Machine
end

