-- ==== Sys2Proof/Machine/Segments.lean ====
section
/-! DEFINITION. SLOAD and SSTORE (42_segmented_load_store.md), MAP and UNMAP (45_segment_management.md). -/

namespace Sys2Proof.Machine

/-- SLOAD (R146): `x[a] <- MemRead(x[b], x[c])`; `pc <- pc + 1`. -/
def execSload (a b c : Reg) (s : State) : Result :=
  s.complete ((s.mem.read (s.loadAddress b c).1 (s.loadAddress b c).2).map (s.setX a))

/-- SSTORE (R147): `MemWrite(x[a], x[b], x[c])`; `pc <- pc + 1`. -/
def execSstore (a b c : Reg) (s : State) : Result :=
  s.complete ((s.mem.write (s.storeAddress a b).1 (s.storeAddress a b).2 (s.x c)).map s.withMem)

/-- MAP (R176): `n <- x[c]`; `i <- Alloc(n)`; `x[b] <- i`; `pc <- pc + 1`. -/
def execMap (b c : Reg) (s : State) : Result :=
  s.complete ((s.alloc (s.x c)).map fun r => r.2.setX b r.1)

/-- UNMAP (R178): `Free(x[c])`; `pc <- pc + 1`. -/
def execUnmap (c : Reg) (s : State) : Result :=
  s.complete (s.free (s.x c))

end Sys2Proof.Machine
end

