-- ==== Sys2Proof/Machine/Dispatch.lean ====
section
/-! DEFINITION. The dispatch table (40_execution_cycle.md R124, block R120): one arm per instruction. -/

namespace Sys2Proof.Machine

/-- What one instruction does to the state, its pc update included (R125). That the run state is `Running` is the step's
check, not the instruction's (R120; log 14). -/
def exec (i : Instr) (s : State) : Host.Outcome State Fault Refusal :=
  match i with
  | .cmov a b c => Sys2Proof.Machine.execCmov a b c s
  | .sload a b c => Sys2Proof.Machine.execSload a b c s
  | .sstore a b c => Sys2Proof.Machine.execSstore a b c s
  | .add a b c => Sys2Proof.Machine.execAdd a b c s
  | .mul a b c => Sys2Proof.Machine.execMul a b c s
  | .div a b c => Sys2Proof.Machine.execDiv a b c s
  | .nand a b c => Sys2Proof.Machine.execNand a b c s
  | .halt => Sys2Proof.Machine.execHalt s
  | .map b c => Sys2Proof.Machine.execMap b c s
  | .unmap c => Sys2Proof.Machine.execUnmap c s
  | .out c => Sys2Proof.Machine.execOut c s
  | .inp c => Sys2Proof.Machine.execIn c s
  | .loadp b c => Sys2Proof.Machine.execLoadp b c s
  | .loadv rl imm => Sys2Proof.Machine.execLoadv rl imm s

end Sys2Proof.Machine
end

