-- ==== Sys2Proof/WellFormed.lean ====
section
/-! DEFINITION. Which terms of `Instr` are instructions of the machine. Register operands are so by their type
(R97); the one check is the bound of the immediate. -/

namespace Sys2Proof

/-- "`imm <= 0x1FFFFFF` (a larger immediate is an assembly error, not an instruction)" (30_encoding.md R103, R96). -/
def Instr.wellFormed : Instr → Bool
  | .cmov _ _ _ | .sload _ _ _ | .sstore _ _ _ | .add _ _ _ | .mul _ _ _ | .div _ _ _ | .nand _ _ _ => true
  | .halt | .map _ _ | .unmap _ | .out _ | .inp _ | .loadp _ _ => true
  | .loadv _ imm => decide (imm ≤ 0x1FFFFFF#32)

/-- `Instr.wellFormed` as a proposition. -/
abbrev Instr.WellFormed (i : Instr) : Prop := i.wellFormed = true

end Sys2Proof
end

