-- ==== Sys2Proof/Decode.lean ====
section
/-! DEFINITION. The instruction decoder and its inverse (30_encoding.md): field extraction, the opcode map, the
canonical encoding, and the big-endian byte form of a word in the program file (20_memory.md R70). -/

namespace Sys2Proof

/-- The field at least-significant-bit offset `lsb` of width `width`: `(w >> L) mod 2^W`, unsigned
(00_scope.md R9). -/
def fieldOf (w : Word) (lsb width : Nat) : Nat := w.toNat / 2 ^ lsb % 2 ^ width

/-- The general extraction contract of R93 as its text words it: `(w AND (((2^W) − 1) << L)) >> L`. -/
def extractField (w : Word) (lsb width : Nat) : Nat :=
  (w.toNat &&& ((2 ^ width - 1) <<< lsb)) >>> lsb

/-- A 3-bit field as a register index (R97). -/
def regField (w : Word) (lsb : Nat) : Reg :=
  ⟨fieldOf w lsb 3, Nat.mod_lt _ (by decide)⟩

/-- The decoder's six outputs (10_state.md R40). -/
structure Fields where
  opcode    : Nat
  regA      : Reg
  regB      : Reg
  regC      : Reg
  regLoad   : Reg
  loadValue : Nat
deriving DecidableEq, Repr

/-- The decoder proper: pure and total, all six fields for every word, whatever the opcode (R92). -/
def decodeFields (w : Word) : Fields where
  opcode    := fieldOf w 28 4
  regA      := regField w 6
  regB      := regField w 3
  regC      := regField w 0
  regLoad   := regField w 25
  loadValue := fieldOf w 0 25

/-- Why a word or a byte sequence is no instruction. -/
inductive Reject where
  /-- the opcode field is 14 or 15 (R99) -/
  | invalidOpcode (opcode : Nat)
  /-- fewer than the four bytes of a word are left (R90: every instruction is one 32-bit word) -/
  | shortWord
deriving DecidableEq, Repr

/-- The instruction a word is: the opcode map of table R98 over the fields of R92. Bits outside the fields an
instruction uses are ignored (R100). -/
def decode (w : Word) : Except Reject Instr :=
  let f := decodeFields w
  match f.opcode with
  | 0 => .ok (.cmov f.regA f.regB f.regC)
  | 1 => .ok (.sload f.regA f.regB f.regC)
  | 2 => .ok (.sstore f.regA f.regB f.regC)
  | 3 => .ok (.add f.regA f.regB f.regC)
  | 4 => .ok (.mul f.regA f.regB f.regC)
  | 5 => .ok (.div f.regA f.regB f.regC)
  | 6 => .ok (.nand f.regA f.regB f.regC)
  | 7 => .ok .halt
  | 8 => .ok (.map f.regB f.regC)
  | 9 => .ok (.unmap f.regC)
  | 10 => .ok (.out f.regC)
  | 11 => .ok (.inp f.regC)
  | 12 => .ok (.loadp f.regB f.regC)
  | 13 => .ok (.loadv f.regLoad (BitVec.ofNat 32 f.loadValue))
  | n => .error (.invalidOpcode n)

/-- The opcode value of an instruction (table R98). -/
def Instr.opcode : Instr → Nat
  | .cmov _ _ _ => 0
  | .sload _ _ _ => 1
  | .sstore _ _ _ => 2
  | .add _ _ _ => 3
  | .mul _ _ _ => 4
  | .div _ _ _ => 5
  | .nand _ _ _ => 6
  | .halt => 7
  | .map _ _ => 8
  | .unmap _ => 9
  | .out _ => 10
  | .inp _ => 11
  | .loadp _ _ => 12
  | .loadv _ _ => 13

/-- The three-register format of the canonical encoding: `(opcode << 28) + (a << 6) + (b << 3) + c` (R103). -/
def threeRegWord (opcode : Nat) (a b c : Reg) : Word :=
  BitVec.ofNat 32 (opcode * 2 ^ 28 + a.val * 2 ^ 6 + b.val * 2 ^ 3 + c.val)

/-- The immediate format of the canonical encoding: `(13 << 28) + (rl << 25) + imm` (R103). -/
def immediateWord (rl : Reg) (imm : Word) : Word :=
  BitVec.ofNat 32 (13 * 2 ^ 28 + rl.val * 2 ^ 25 + imm.toNat)

/-- The canonical word of a well-formed instruction, every unused bit 0 (R103). -/
def encode (i : Instr) : Word :=
  match i with
  | .cmov a b c => threeRegWord 0 a b c
  | .sload a b c => threeRegWord 1 a b c
  | .sstore a b c => threeRegWord 2 a b c
  | .add a b c => threeRegWord 3 a b c
  | .mul a b c => threeRegWord 4 a b c
  | .div a b c => threeRegWord 5 a b c
  | .nand a b c => threeRegWord 6 a b c
  | .halt => threeRegWord 7 0 0 0
  | .map b c => threeRegWord 8 0 b c
  | .unmap c => threeRegWord 9 0 0 c
  | .out c => threeRegWord 10 0 0 c
  | .inp c => threeRegWord 11 0 0 c
  | .loadp b c => threeRegWord 12 0 b c
  | .loadv rl imm => immediateWord rl imm

/-- The bits of a word that select instruction `i` or one of its operands; the others are ignored (R100). -/
def Instr.usedBits : Instr → Word
  | .cmov _ _ _ | .sload _ _ _ | .sstore _ _ _ | .add _ _ _ | .mul _ _ _ | .div _ _ _ | .nand _ _ _ =>
    0xF00001FF#32
  | .halt => 0xF0000000#32
  | .map _ _ | .loadp _ _ => 0xF000003F#32
  | .unmap _ | .out _ | .inp _ => 0xF0000007#32
  | .loadv _ _ => 0xFFFFFFFF#32

/-- Four bytes of the program file as a word, the first the most significant (20_memory.md R70). -/
def wordOfBytes (b0 b1 b2 b3 : Byte) : Word :=
  BitVec.ofNat 32 (b0.toNat * 2 ^ 24 + b1.toNat * 2 ^ 16 + b2.toNat * 2 ^ 8 + b3.toNat)

/-- The instruction at the head of a byte sequence in file order, and the bytes after it. -/
def decodeBytes : List Byte → Except Reject (Instr × List Byte)
  | b0 :: b1 :: b2 :: b3 :: rest =>
    match decode (wordOfBytes b0 b1 b2 b3) with
    | .ok i => .ok (i, rest)
    | .error r => .error r
  | _ => .error .shortWord

/-- The instruction of an opcode-table word of `nbits` bits, the bits above them 0. -/
def decodeTableWord (nbits w : Nat) : Option Instr :=
  match decode (BitVec.ofNat 32 (w % 2 ^ nbits)) with
  | .ok i => some i
  | .error _ => none

end Sys2Proof
end

