-- ==== Sys2Proof/Machine/Fetch.lean ====
section
/-! DEFINITION. Fetching an instruction (40_execution_cycle.md R121, R122) and placing a word where the next fetch
finds it. -/

namespace Sys2Proof.Machine

/-- What the start of a step finds (R121, R122, R124). -/
inductive Fetched where
  /-- the pc equals the program's length: implicit halt -/
  | endOfProgram
  /-- the step faults before any instruction is executed -/
  | fault (kind : FaultKind)
  /-- the instruction at (0, pc) -/
  | instr (i : Instr)
deriving DecidableEq, Repr

/-- The word at offset pc of segment 0 (R122), as memory holds it now (20_memory.md R76). -/
def State.fetchWord (s : State) : Word := s.mem.program.word s.pc

/-- The end-of-program check (R121), the fetch (R122), the decoder (R123) and the dispatcher's test of the opcode (R124,
`InvalidOpcode`), in this order (60_exceptions.md R232). -/
def State.fetch (s : State) : Fetched :=
  if s.pc = s.mem.progLen then .endOfProgram
  else if s.mem.progLen < s.pc then .fault .outOfBoundsOffset
  else
    match decode s.fetchWord with
    | .error _ => .fault .invalidOpcode
    | .ok i => .instr i

/-- The largest offset an instruction can have is 2^32 − 2 (`MAX_PROG_LEN`, R8): the offset used to place a word is the
pc, or 0 when the pc is 2^32 − 1 (log 13). -/
def State.placeOffset (s : State) : Word := if s.pc = 0xFFFFFFFF#32 then 0#32 else s.pc

/-- Segment 0 long enough to have a word at `off`, with that word set. -/
def Segment.place (g : Segment) (off w : Word) : Segment :=
  Segment.setWord { g with len := if off < g.len then g.len else off + 1#32 } off w

/-- The running state whose next fetch finds the word `w` (log 13). -/
def State.placeWord (s : State) (w : Word) : State :=
  { s with
    pc := s.placeOffset
    run := .running
    mem := { s.mem with program := s.mem.program.place s.placeOffset w } }

end Sys2Proof.Machine
end

