-- ==== Sys2Proof/Machine/Step.lean ====
section
/-! DEFINITION. One step of the engine (40_execution_cycle.md block R120). -/

namespace Sys2Proof.Machine

/-- One step: taken only when the run state is `Running` (R28, R128); then the end-of-program check, fetch, decode and
dispatch. -/
def step (s : State) : Host.Outcome State Fault Refusal :=
  match s.run with
  | .halted => .fault .noStepHalted
  | .faulted k => .fault (.noStepFaulted k)
  | .running =>
    match s.fetch with
    | .endOfProgram => .next s.halt
    | .fault k => .next (s.raise k)
    | .instr i => exec i s

/-- `s` with the instruction word `w` of `nbits` bits where the next step fetches it (log 13). -/
def State.withFetchWord (s : State) (nbits w : Nat) : State :=
  s.placeWord (BitVec.ofNat 32 (w % 2 ^ nbits))

end Sys2Proof.Machine
end

