-- ==== Sys2Proof/Machine/Boot.lean ====
section
/-! DEFINITION. The loader's contract and the reset input (70_reset_and_hazards.md R260 to R265; 20_memory.md R64, R70;
60_exceptions.md R223). The loader is outside the block (00_scope.md R6 a): what stands here is the boot obligation the
spec puts on it. -/

namespace Sys2Proof.Machine

/-- Why the loader refuses a program file; the engine is then never started (R223, R64). -/
inductive LoadError where
  /-- the byte length is not a multiple of 4 (R265, conflict C1) -/
  | malformedFile
  /-- more than `MAX_PROG_LEN` = 2^32 − 1 words (R64, decision D15) -/
  | programTooLong
deriving DecidableEq, Repr

/-- The words of a program file: "a flat sequence of 32-bit words, stored big-endian, four bytes per word, with no
header" (R70); none when bytes are left over. -/
def wordsOfFile : List Byte → Option (List Word)
  | [] => some []
  | b0 :: b1 :: b2 :: b3 :: rest => (wordsOfFile rest).map (wordOfBytes b0 b1 b2 b3 :: ·)
  | _ => none

/-- The state after reset with a program in segment 0, a configuration and an input device attached (10_state.md R45). -/
def State.loaded (cfg : Config) (program : List Word) (bytes : List Byte) (closed : Bool) : State :=
  { State.reset with
    mem := ⟨Segment.ofWords program, []⟩
    input := ⟨bytes, closed, 0, false⟩
    cfg := cfg }

/-- The loader (R265): the file becomes segment 0, word `k` from bytes `4k .. 4k+3`, and the engine starts. -/
def State.boot (cfg : Config) (file bytes : List Byte) (closed : Bool) : Except LoadError State :=
  match wordsOfFile file with
  | none => .error .malformedFile
  | some ws =>
    if 2 ^ 32 ≤ ws.length then .error .programTooLong else .ok (State.loaded cfg ws bytes closed)

/-- The reset input (R260), in any run state: everything of the earlier run is discarded; the configuration of the
implementation stays. -/
def State.applyReset (s : State) (program : List Word) (bytes : List Byte) (closed : Bool) : State :=
  State.loaded s.cfg program bytes closed

end Sys2Proof.Machine
end

