-- ==== Sys2Proof/Safety.lean ====
section
/-! DEFINITION. What counts as a good run (60_exceptions.md R251), the invariant of the reachable states, and the words
in which the statements say what an instruction leaves unchanged. -/

namespace Sys2Proof.Machine

/-- A good final state: `Halted` (R251, 00_scope.md R17). `Faulted(kind)` is never one. -/
abbrev State.GoodEnd (s : State) : Prop := s.run = .halted

/-- A final state: no step exists (10_state.md R28). -/
abbrev State.Terminal (s : State) : Prop := s.run ≠ .running

/-- Safety of a state: the machine has not faulted. -/
abbrev State.Safe (s : State) : Prop := ∀ k, s.run ≠ .faulted k

/-- What the host reads at the end of a run (R251): success, failure, or nothing while the run goes on. -/
def RunState.exitSuccess? : RunState → Option Bool
  | .running => none
  | .halted => some true
  | .faulted _ => some false

/-- `t` is a state of the run that starts in `s`, `n` steps later. -/
def State.After (n : Nat) (s t : State) : Prop := Sys2Proof.core.run n s = .next t

/-! ## The invariant -/

/-- Every identifier mapped beside 0 is a member of `ID_SPACE` (R58). -/
abbrev State.IdsInSpace (s : State) : Prop := ∀ e ∈ s.mem.segs, idInSpace s.cfg.idSpace e.1 = true

/-- The bookkeeping of `alloc_policy = lifo` (R59): the identifiers ever handed out are members of `ID_SPACE`, each of them
is either mapped or waiting in `freed`, once, and never both; every mapped identifier was handed out. -/
abbrev State.LifoBook (s : State) : Prop :=
  s.allocator.freed.Nodup ∧ s.allocator.used.Nodup ∧
  (∀ id ∈ s.allocator.freed, id ∈ s.allocator.used ∧ s.mem.mapped id = false) ∧
  (∀ id ∈ s.allocator.used,
    idInSpace s.cfg.idSpace id.toNat = true ∧ (s.mem.mapped id = true ∨ id ∈ s.allocator.freed)) ∧
  (∀ e ∈ s.mem.segs, BitVec.ofNat 32 e.1 ∈ s.allocator.used)

/-- The allocator is in order: under `any` it keeps nothing beyond the memory map (10_state.md R34). -/
abbrev State.AllocatorSound (s : State) : Prop :=
  s.IdsInSpace ∧
  (s.cfg.allocPolicy = .any → s.allocator = ⟨[], []⟩) ∧
  (s.cfg.allocPolicy = .lifo → s.LifoBook)

/-- The input position is within the stream, and end of input is signalled only at its end (R35). -/
abbrev InputStream.Sound (i : InputStream) : Prop :=
  i.pos ≤ i.bytes.length ∧ (i.eofSeen = true → i.closed = true ∧ i.pos = i.bytes.length)

/-- The invariant: canonical memory, allocator in order, input position in range. -/
abbrev State.Inv (s : State) : Prop := s.mem.wf ∧ s.AllocatorSound ∧ s.input.Sound

/-! ## What is unchanged -/

/-- Every register but those in `dest` keeps its value. -/
def State.SameRegsBut (s t : State) (dest : List Reg) : Prop := ∀ r, r ∉ dest → t.x r = s.x r

/-- Every word of memory reads as before: the same word, or the same fault (so mapping and lengths are the same too). -/
def State.SameMem (s t : State) : Prop := ∀ id off, t.mem.read id off = s.mem.read id off

/-- Every word outside segment `id` reads as before. -/
def State.SameMemOutside (s t : State) (id : Word) : Prop :=
  ∀ j off, j ≠ id → t.mem.read j off = s.mem.read j off

/-- The allocator's bookkeeping and the draw counter are as before. -/
def State.SameAllocator (s t : State) : Prop := t.allocator = s.allocator ∧ t.draws = s.draws

/-- Both streams of the device are as before. -/
def State.SameStreams (s t : State) : Prop := t.input = s.input ∧ t.output = s.output

/-- The frame of an instruction that works on registers alone: registers but `dest`, the run state, all of memory, the
allocator, both streams and the configuration are as before. The pc may change. -/
def State.RegisterFrame (s t : State) (dest : List Reg) : Prop :=
  s.SameRegsBut t dest ∧ t.run = s.run ∧ s.SameMem t ∧ s.SameAllocator t ∧ s.SameStreams t ∧ t.cfg = s.cfg

/-! ## Operands and faults of an instruction, as the spec's tables list them -/

/-- The register an instruction writes (table R23, column "register written"). -/
def destination : Instr → Option Reg
  | .cmov a _ _ | .sload a _ _ | .add a _ _ | .mul a _ _ | .div a _ _ | .nand a _ _ => some a
  | .map b _ => some b
  | .inp c => some c
  | .loadv rl _ => some rl
  | .sstore _ _ _ | .halt | .unmap _ | .out _ | .loadp _ _ => none

/-- The registers an instruction reads (table R23, column "registers read"). -/
def sources : Instr → List Reg
  | .sstore a b c => [a, b, c]
  | .cmov _ b c | .sload _ b c | .add _ b c | .mul _ b c | .div _ b c | .nand _ b c => [b, c]
  | .loadp b c => [b, c]
  | .map _ c | .unmap c | .out c => [c]
  | .halt | .inp _ | .loadv _ _ => []

/-- The fault kinds an instruction can raise (60_exceptions.md table R221, R225). -/
def faultKinds (eof : EofPolicy) : Instr → List FaultKind
  | .cmov _ _ _ | .add _ _ _ | .mul _ _ _ | .nand _ _ _ | .halt | .loadv _ _ => []
  | .sload _ _ _ | .sstore _ _ _ => [.unmappedSegmentAccess, .outOfBoundsOffset]
  | .div _ _ _ => [.divisionByZero]
  | .map _ _ => [.segmentSpaceExhausted]
  | .unmap _ => [.freeOfSegmentZero, .unmappedSegmentAccess]
  | .out _ => [.outputOverflow]
  | .inp _ => match eof with
    | .allOnes => []
    | .fault => [.inputExhausted]
  | .loadp _ _ => [.unmappedSegmentAccess]

end Sys2Proof.Machine
end

