-- ==== Sys2Proof/Certificates/Slice0/Obligations.lean ====
section
/-! DEFINITION. The statements for the provers. Each docstring names the rule of spec/ it formalises. "Faulted" next states
are written out as the whole old state with the run state changed, so each says by itself that nothing else changes. -/

open Sys2Proof Sys2Proof.Machine

/-! ## Reset and the loader -/

/-- 10_state.md R45, for the state the model calls reset (nothing loaded): registers 0, pc 0, `Running`, only segment 0
mapped, of length 0, bookkeeping empty, input at its first byte, output empty. The empty program is log 13's choice. -/
def Obligations.ResetLeavesRegistersZeroAndOnlySegmentZero : Prop :=
  (∀ r, State.reset.x r = 0#32) ∧ State.reset.pc = 0#32 ∧ State.reset.run = .running ∧
  State.reset.run.statusCode = 0#2 ∧ State.reset.run.faultCode = 0#4 ∧
  (∀ id, State.reset.mem.mapped id = true ↔ id = 0#32) ∧ State.reset.mem.progLen = 0#32 ∧
  State.reset.allocator.freed = [] ∧ State.reset.allocator.used = [] ∧
  State.reset.input.pos = 0 ∧ State.reset.input.eofSeen = false ∧ State.reset.output = []

/-- 10_state.md R45 with the loader of 70_reset_and_hazards.md R265: a file of whole words, fewer than 2^32 of them, gives
the reset state with word `k` of segment 0 made big-endian of bytes `4k .. 4k+3`. -/
def Obligations.BootGivesTheResetStateWithTheProgram : Prop :=
  ∀ (cfg : Config) (file bytes : List Byte) (closed : Bool),
    file.length % 4 = 0 → file.length / 4 < 2 ^ 32 →
    ∃ s, State.boot cfg file bytes closed = .ok s ∧
      (∀ r, s.x r = 0#32) ∧ s.pc = 0#32 ∧ s.run = .running ∧
      s.run.statusCode = 0#2 ∧ s.run.faultCode = 0#4 ∧
      (∀ id, s.mem.mapped id = true ↔ id = 0#32) ∧
      s.mem.progLen.toNat = file.length / 4 ∧
      (∀ k, k < file.length / 4 → ∃ b0 b1 b2 b3 w,
        file[4 * k]? = some b0 ∧ file[4 * k + 1]? = some b1 ∧ file[4 * k + 2]? = some b2 ∧
        file[4 * k + 3]? = some b3 ∧ s.mem.read 0#32 (BitVec.ofNat 32 k) = .ok w ∧
        w.toNat = b0.toNat * 2 ^ 24 + b1.toNat * 2 ^ 16 + b2.toNat * 2 ^ 8 + b3.toNat) ∧
      s.allocator.freed = [] ∧ s.allocator.used = [] ∧
      s.input.bytes = bytes ∧ s.input.closed = closed ∧ s.input.pos = 0 ∧ s.input.eofSeen = false ∧
      s.output = [] ∧ s.cfg = cfg

/-- 60_exceptions.md R223 and 20_memory.md R64: the loader refuses a file whose byte length is no multiple of 4, and a
program of 2^32 words or more; the engine is not started. -/
def Obligations.LoaderRefusesMalformedAndOverlongFiles : Prop :=
  ∀ (cfg : Config) (file bytes : List Byte) (closed : Bool),
    (file.length % 4 ≠ 0 → State.boot cfg file bytes closed = .error .malformedFile) ∧
    (file.length % 4 = 0 → 2 ^ 32 ≤ file.length / 4 →
      State.boot cfg file bytes closed = .error .programTooLong)

/-- 70_reset_and_hazards.md R260: reset applied in any state takes the values of R45, with segment 0 holding the program
the loader supplies; two states of one implementation reset alike, so nothing of the earlier run survives. -/
def Obligations.ResetInputDiscardsTheEarlierRun : Prop :=
  ∀ (s : State) (program : List Word) (bytes : List Byte) (closed : Bool), program.length < 2 ^ 32 →
    (∀ r, (s.applyReset program bytes closed).x r = 0#32) ∧
    (s.applyReset program bytes closed).pc = 0#32 ∧
    (s.applyReset program bytes closed).run = .running ∧
    (∀ id, (s.applyReset program bytes closed).mem.mapped id = true ↔ id = 0#32) ∧
    (s.applyReset program bytes closed).mem.progLen.toNat = program.length ∧
    (∀ k w, program[k]? = some w →
      (s.applyReset program bytes closed).mem.read 0#32 (BitVec.ofNat 32 k) = .ok w) ∧
    (s.applyReset program bytes closed).allocator = ⟨[], []⟩ ∧
    (s.applyReset program bytes closed).input = ⟨bytes, closed, 0, false⟩ ∧
    (s.applyReset program bytes closed).output = [] ∧
    (∀ u : State, u.cfg = s.cfg → u.applyReset program bytes closed = s.applyReset program bytes closed)

/-! ## Encoding -/

/-- 30_encoding.md R92: the six fields of every word. -/
def Obligations.DecoderCutsSixUnsignedFields : Prop :=
  ∀ w : Word,
    (decodeFields w).opcode = w.toNat >>> 28 ∧
    (decodeFields w).regA.val = (w.toNat >>> 6) % 8 ∧
    (decodeFields w).regB.val = (w.toNat >>> 3) % 8 ∧
    (decodeFields w).regC.val = w.toNat % 8 ∧
    (decodeFields w).regLoad.val = (w.toNat >>> 25) % 8 ∧
    (decodeFields w).loadValue = w.toNat % 2 ^ 25

/-- 30_encoding.md R95: putting the fields back at their offsets gives the word's bits again, in both formats. -/
def Obligations.FieldsReassembleTheWord : Prop :=
  ∀ w : Word,
    ((decodeFields w).opcode <<< 28 ||| (decodeFields w).regA.val <<< 6 |||
      (decodeFields w).regB.val <<< 3 ||| (decodeFields w).regC.val = w.toNat &&& 0xF00001FF) ∧
    ((decodeFields w).opcode <<< 28 ||| (decodeFields w).regLoad.val <<< 25 |||
      (decodeFields w).loadValue = w.toNat)

/-- 30_encoding.md R93: the mask-then-shift contract gives the field `(w >> L) mod 2^W` that the decoder uses, and a field
of width 0 yields 0. -/
def Obligations.GeneralFieldExtraction : Prop :=
  ∀ (w : Word) (lsb width : Nat),
    extractField w lsb width = fieldOf w lsb width ∧ extractField w lsb 0 = 0

/-- 30_encoding.md R98, R99: a word is the instruction with opcode `k` exactly when `w AND mask = match`, for `k` in
0 .. 13; a word with `w[31:28]` 14 or 15 is no instruction, and every other word is one. -/
def Obligations.OpcodeFieldSelectsTheInstruction : Prop :=
  ∀ w : Word,
    (∀ k, k < 14 →
      (w &&& 0xF0000000#32 = BitVec.ofNat 32 (k * 2 ^ 28) ↔ ∃ i, decode w = .ok i ∧ i.opcode = k)) ∧
    (0xE0000000#32 ≤ w ↔ ∃ k, decode w = .error (.invalidOpcode k)) ∧
    decode w ≠ .error .shortWord

/-- 30_encoding.md R100: two words that differ only in bits an instruction does not use are the same instruction. -/
def Obligations.UnusedBitsAreIgnored : Prop :=
  ∀ (w v : Word) (i : Instr), decode w = .ok i → w &&& i.usedBits = v &&& i.usedBits → decode v = .ok i

/-- Decoding the canonical encoding (30_encoding.md R92, R103) of any well-formed instruction, with every operand, gives
it back. -/
def Obligations.DecodeOfEncodeIsTheInstruction : Prop :=
  ∀ i : Instr, i.WellFormed → decode (encode i) = .ok i

/-- Whatever the decoder reads is a well-formed instruction, and its canonical word is the word read with the unused bits
cleared (30_encoding.md R100, R103). -/
def Obligations.DecodedWordsAreWellFormedAndReencode : Prop :=
  ∀ (w : Word) (i : Instr), decode w = .ok i → i.WellFormed ∧ encode i = w &&& i.usedBits

/-- Words written out bit by bit from tables R90, R91, R98 decode to the instructions they stand for. -/
def Obligations.WordsOfTheSpecDecode : Prop :=
  decode 0b00000000000000000000000101110001#32 = .ok (.cmov 5 6 1) ∧
  decode 0b00010000000000000000000101010100#32 = .ok (.sload 5 2 4) ∧
  decode 0b00100000000000000000000010100011#32 = .ok (.sstore 2 4 3) ∧
  decode 0b00110000000000000000000100001010#32 = .ok (.add 4 1 2) ∧
  decode 0b01010000000000000000000101101111#32 = .ok (.div 5 5 7) ∧
  decode 0b10000000000000000000000000010001#32 = .ok (.map 2 1) ∧
  decode 0b10100000000000000000000000000001#32 = .ok (.out 1) ∧
  decode 0b11000000000000000000000000010011#32 = .ok (.loadp 2 3) ∧
  decode 0b11010011000000000000000000000000#32 = .ok (.loadv 1 0x1000000) ∧
  decode 0b11100000000000000000000000000000#32 = .error (.invalidOpcode 14)

/-! ## The instructions

Each states the words that decode to the instruction and what it does to every state: its result, its pc, its frame, and
its faults. -/

/-- 41_conditional_move.md R141. -/
def Obligations.CmovMovesWhenTheConditionIsNotZero : Prop :=
  (∀ w, fieldOf w 28 4 = 0 → decode w = .ok (.cmov (regField w 6) (regField w 3) (regField w 0))) ∧
  ∀ (a b c : Reg) (s : State), ∃ t, exec (.cmov a b c) s = .next t ∧
    (s.x c ≠ 0#32 → t.x a = s.x b) ∧ (s.x c = 0#32 → t.x a = s.x a) ∧
    t.pc = s.pc + 1#32 ∧ s.RegisterFrame t [a]

/-- 42_segmented_load_store.md R146. -/
def Obligations.SloadReadsAWordOrFaults : Prop :=
  (∀ w, fieldOf w 28 4 = 1 → decode w = .ok (.sload (regField w 6) (regField w 3) (regField w 0))) ∧
  ∀ (a b c : Reg) (s : State),
    (∀ g, s.mem.seg? (s.x b) = some g → s.x c < g.len →
      ∃ t, exec (.sload a b c) s = .next t ∧ t.x a = g.word (s.x c) ∧
        t.pc = s.pc + 1#32 ∧ s.RegisterFrame t [a]) ∧
    (s.mem.mapped (s.x b) = false →
      exec (.sload a b c) s = .next { s with run := .faulted .unmappedSegmentAccess }) ∧
    (∀ g, s.mem.seg? (s.x b) = some g → g.len ≤ s.x c →
      exec (.sload a b c) s = .next { s with run := .faulted .outOfBoundsOffset })

/-- 42_segmented_load_store.md R147: the address stored to is `storeAddress`, the one the meaning uses. -/
def Obligations.SstoreWritesOneWordOrFaults : Prop :=
  (∀ w, fieldOf w 28 4 = 2 → decode w = .ok (.sstore (regField w 6) (regField w 3) (regField w 0))) ∧
  ∀ (a b c : Reg) (s : State) (id off : Word), s.storeAddress a b = (id, off) →
    (∀ g, s.mem.seg? id = some g → off < g.len →
      ∃ t, exec (.sstore a b c) s = .next t ∧ t.mem.read id off = .ok (s.x c) ∧
        (∀ j o, (j, o) ≠ (id, off) → t.mem.read j o = s.mem.read j o) ∧
        t.pc = s.pc + 1#32 ∧ s.SameRegsBut t [] ∧ t.run = s.run ∧ s.SameAllocator t ∧ s.SameStreams t ∧
        t.cfg = s.cfg) ∧
    (s.mem.mapped id = false →
      exec (.sstore a b c) s = .next { s with run := .faulted .unmappedSegmentAccess }) ∧
    (∀ g, s.mem.seg? id = some g → g.len ≤ off →
      exec (.sstore a b c) s = .next { s with run := .faulted .outOfBoundsOffset })

/-- 43_alu.md R156: the sum is formed in natural numbers and reduced modulo 2^32. -/
def Obligations.AddWrapsModulo32Bits : Prop :=
  (∀ w, fieldOf w 28 4 = 3 → decode w = .ok (.add (regField w 6) (regField w 3) (regField w 0))) ∧
  ∀ (a b c : Reg) (s : State), ∃ t, exec (.add a b c) s = .next t ∧
    (t.x a).toNat = ((s.x b).toNat + (s.x c).toNat) % 2 ^ 32 ∧
    t.pc = s.pc + 1#32 ∧ s.RegisterFrame t [a]

/-- 43_alu.md R157: the low 32 bits of the product. -/
def Obligations.MulWrapsModulo32Bits : Prop :=
  (∀ w, fieldOf w 28 4 = 4 → decode w = .ok (.mul (regField w 6) (regField w 3) (regField w 0))) ∧
  ∀ (a b c : Reg) (s : State), ∃ t, exec (.mul a b c) s = .next t ∧
    (t.x a).toNat = ((s.x b).toNat * (s.x c).toNat) % 2 ^ 32 ∧
    t.pc = s.pc + 1#32 ∧ s.RegisterFrame t [a]

/-- 43_alu.md R158: the unique unsigned quotient, or `DivisionByZero` for every dividend. -/
def Obligations.DivGivesTheUnsignedQuotientOrFaults : Prop :=
  (∀ w, fieldOf w 28 4 = 5 → decode w = .ok (.div (regField w 6) (regField w 3) (regField w 0))) ∧
  ∀ (a b c : Reg) (s : State),
    (s.x c ≠ 0#32 → ∃ t, exec (.div a b c) s = .next t ∧
      (t.x a).toNat * (s.x c).toNat ≤ (s.x b).toNat ∧
      (s.x b).toNat < ((t.x a).toNat + 1) * (s.x c).toNat ∧
      t.pc = s.pc + 1#32 ∧ s.RegisterFrame t [a]) ∧
    (s.x c = 0#32 → exec (.div a b c) s = .next { s with run := .faulted .divisionByZero })

/-- 43_alu.md R159: bit by bit, and as `0xFFFFFFFF − (x[b] AND x[c])`. -/
def Obligations.NandComplementsTheConjunction : Prop :=
  (∀ w, fieldOf w 28 4 = 6 → decode w = .ok (.nand (regField w 6) (regField w 3) (regField w 0))) ∧
  ∀ (a b c : Reg) (s : State), ∃ t, exec (.nand a b c) s = .next t ∧
    (∀ i, i < 32 → (t.x a).getLsbD i = !((s.x b).getLsbD i && (s.x c).getLsbD i)) ∧
    (t.x a).toNat = 0xFFFFFFFF - (s.x b &&& s.x c).toNat ∧
    t.pc = s.pc + 1#32 ∧ s.RegisterFrame t [a]

/-- 44_halt.md R171: `Halted`, the pc kept, nothing else changed; every word with opcode 7 is HALT; no step follows. -/
def Obligations.HaltEndsTheRunInPlace : Prop :=
  (∀ w, fieldOf w 28 4 = 7 → decode w = .ok .halt) ∧
  ∀ s : State, exec .halt s = .next { s with run := .halted } ∧
    ∀ t, step { s with run := .halted } ≠ .next t

/-- 45_segment_management.md R176 with 20_memory.md R58, R61, for either policy: in a state of the invariant with an unused
identifier, MAP writes to `x[b]` a non-zero identifier of `ID_SPACE` that was not mapped, under which `x[c]` zero words are
now mapped; with none it faults. The bookkeeping of `lifo` is stated in `LifoReusesTheMostRecentlyFreed`. -/
def Obligations.MapGivesAFreshZeroSegmentOrFaults : Prop :=
  (∀ w, fieldOf w 28 4 = 8 → decode w = .ok (.map (regField w 3) (regField w 0))) ∧
  ∀ (b c : Reg) (s : State), s.Inv →
    ((∃ i, s.allocatable i = true) →
      ∃ t, exec (.map b c) s = .next t ∧
        t.x b ≠ 0#32 ∧ s.mem.mapped (t.x b) = false ∧ idInSpace s.cfg.idSpace (t.x b).toNat = true ∧
        t.mem.len? (t.x b) = some (s.x c) ∧
        (∀ off, off < s.x c → t.mem.read (t.x b) off = .ok 0#32) ∧ s.SameMemOutside t (t.x b) ∧
        t.pc = s.pc + 1#32 ∧ s.SameRegsBut t [b] ∧ t.run = s.run ∧ s.SameStreams t ∧ t.cfg = s.cfg ∧
        (s.cfg.allocPolicy = .any → t.allocator = s.allocator) ∧
        (s.cfg.allocPolicy = .lifo → t.draws = s.draws)) ∧
    ((∀ i, s.allocatable i = false) →
      exec (.map b c) s = .next { s with run := .faulted .segmentSpaceExhausted })

/-- 45_segment_management.md R178 with 20_memory.md R60: the named segment leaves the memory and its identifier is unused
again; identifier 0 and unmapped identifiers fault. Under `lifo` the identifier is pushed on `freed` (R59). -/
def Obligations.UnmapFreesTheSegmentOrFaults : Prop :=
  (∀ w, fieldOf w 28 4 = 9 → decode w = .ok (.unmap (regField w 0))) ∧
  ∀ (c : Reg) (s : State),
    (s.x c ≠ 0#32 → s.mem.mapped (s.x c) = true →
      ∃ t, exec (.unmap c) s = .next t ∧ t.mem.mapped (s.x c) = false ∧ s.SameMemOutside t (s.x c) ∧
        (s.IdsInSpace → t.allocatable (s.x c) = true) ∧
        t.pc = s.pc + 1#32 ∧ s.SameRegsBut t [] ∧ t.run = s.run ∧ s.SameStreams t ∧ t.cfg = s.cfg ∧
        t.draws = s.draws ∧ t.allocator.used = s.allocator.used ∧
        (s.cfg.allocPolicy = .any → t.allocator.freed = s.allocator.freed) ∧
        (s.cfg.allocPolicy = .lifo → t.allocator.freed = s.x c :: s.allocator.freed)) ∧
    (s.x c = 0#32 → exec (.unmap c) s = .next { s with run := .faulted .freeOfSegmentZero }) ∧
    (s.x c ≠ 0#32 → s.mem.mapped (s.x c) = false →
      exec (.unmap c) s = .next { s with run := .faulted .unmappedSegmentAccess })

/-- 46_io.md R187, R186: one byte, the whole value, is appended; a value above 255 faults and emits nothing. -/
def Obligations.OutEmitsOneByteOrFaults : Prop :=
  (∀ w, fieldOf w 28 4 = 10 → decode w = .ok (.out (regField w 0))) ∧
  ∀ (c : Reg) (s : State),
    ((s.x c).toNat ≤ 255 → ∃ t byte, exec (.out c) s = .next t ∧
      t.output = s.output ++ [byte] ∧ byte.toNat = (s.x c).toNat ∧
      t.pc = s.pc + 1#32 ∧ s.SameRegsBut t [] ∧ t.run = s.run ∧ s.SameMem t ∧ s.SameAllocator t ∧
      t.input = s.input ∧ t.cfg = s.cfg) ∧
    (255 < (s.x c).toNat → exec (.out c) s = .next { s with run := .faulted .outputOverflow })

/-- 46_io.md R190, R192: the next byte zero-extended; at end of input all ones or `InputExhausted`, as the policy says; the
frame of each. The hold is stated in `HeldInputWaitsForTheDevice`. -/
def Obligations.InTakesTheNextByteOrSeesTheEnd : Prop :=
  (∀ w, fieldOf w 28 4 = 11 → decode w = .ok (.inp (regField w 0))) ∧
  ∀ (c : Reg) (s : State),
    (∀ byte, s.input.eofSeen = false → s.input.bytes[s.input.pos]? = some byte →
      ∃ t, exec (.inp c) s = .next t ∧ (t.x c).toNat = byte.toNat ∧
        t.input = { s.input with pos := s.input.pos + 1 } ∧
        t.pc = s.pc + 1#32 ∧ s.SameRegsBut t [c] ∧ t.run = s.run ∧ s.SameMem t ∧ s.SameAllocator t ∧
        t.output = s.output ∧ t.cfg = s.cfg) ∧
    ((s.input.eofSeen = true ∨ s.input.bytes[s.input.pos]? = none ∧ s.input.closed = true) →
      (s.cfg.eofPolicy = .allOnes →
        ∃ t, exec (.inp c) s = .next t ∧ t.x c = 0xFFFFFFFF#32 ∧
          t.input = { s.input with eofSeen := true } ∧
          t.pc = s.pc + 1#32 ∧ s.SameRegsBut t [c] ∧ t.run = s.run ∧ s.SameMem t ∧ s.SameAllocator t ∧
          t.output = s.output ∧ t.cfg = s.cfg) ∧
      (s.cfg.eofPolicy = .fault → exec (.inp c) s = .next { s with run := .faulted .inputExhausted }))

/-- 47_load_program.md R201 with 20_memory.md R62: segment 0 becomes a copy of segment `x[b]`, the pc becomes `x[c]` and is
not advanced or checked; with `x[b] = 0` memory is unchanged (a plain jump); an unmapped `x[b]` faults. -/
def Obligations.LoadpReplacesTheProgramAndJumps : Prop :=
  (∀ w, fieldOf w 28 4 = 12 → decode w = .ok (.loadp (regField w 3) (regField w 0))) ∧
  ∀ (b c : Reg) (s : State),
    (s.mem.mapped (s.x b) = true →
      ∃ t, exec (.loadp b c) s = .next t ∧ t.pc = s.x c ∧
        some t.mem.progLen = s.mem.len? (s.x b) ∧
        (∀ off, t.mem.read 0#32 off = s.mem.read (s.x b) off) ∧ s.SameMemOutside t 0#32 ∧
        (s.x b = 0#32 → t.mem = s.mem) ∧
        s.SameRegsBut t [] ∧ t.run = s.run ∧ s.SameAllocator t ∧ s.SameStreams t ∧ t.cfg = s.cfg) ∧
    (s.mem.mapped (s.x b) = false →
      exec (.loadp b c) s = .next { s with run := .faulted .unmappedSegmentAccess })

/-- 48_load_value.md with 30_encoding.md R96: the 25-bit immediate, zero-extended; bits 31:25 become 0. That `exec` of an
ill-formed LOADV, which no word decodes to, takes the low 25 bits is the model's choice (log 15): the bound on `x[rl]` is stated
for such an immediate too. -/
def Obligations.LoadvLoadsTheZeroExtendedImmediate : Prop :=
  (∀ w, fieldOf w 28 4 = 13 →
    decode w = .ok (.loadv (regField w 25) (BitVec.ofNat 32 (fieldOf w 0 25)))) ∧
  ∀ (rl : Reg) (imm : Word) (s : State), ∃ t, exec (.loadv rl imm) s = .next t ∧
    (imm ≤ 0x1FFFFFF#32 → t.x rl = imm) ∧ t.x rl ≤ 0x1FFFFFF#32 ∧
    t.pc = s.pc + 1#32 ∧ s.RegisterFrame t [rl]

/-! ## The segmented memory and the allocator -/

/-- 20_memory.md R56: `MemRead` faults on an unmapped identifier first, then on an offset not below the length, and else
gives a word. -/
def Obligations.MemReadChecksThenReads : Prop :=
  ∀ (m : Memory) (id off : Word),
    (m.mapped id = false → m.read id off = .error .unmappedSegmentAccess) ∧
    (∀ n, m.len? id = some n →
      (n ≤ off → m.read id off = .error .outOfBoundsOffset) ∧
      (off < n → ∃ g, m.seg? id = some g ∧ m.read id off = .ok (g.word off)))

/-- 20_memory.md R57: `MemWrite` makes the same checks; when it succeeds the word reads back, no other word of any segment
changes, and no length or mapping does. -/
def Obligations.MemWriteChangesOneWord : Prop :=
  ∀ (m : Memory) (id off v : Word),
    (m.mapped id = false → m.write id off v = .error .unmappedSegmentAccess) ∧
    (∀ n, m.len? id = some n →
      (n ≤ off → m.write id off v = .error .outOfBoundsOffset) ∧
      (off < n → ∃ m', m.write id off v = .ok m' ∧ m'.read id off = .ok v ∧
        (∀ j o, (j, o) ≠ (id, off) → m'.read j o = m.read j o) ∧ ∀ j, m'.len? j = m.len? j))

/-- 20_memory.md R62: after `LoadProgram(id)` segment 0 equals segment `id` in length and words, every other segment and
every mapping is as before, and the copy is separate: a later write to either leaves the other. For `id = 0` memory is
unchanged, and an unmapped `id` faults. -/
def Obligations.LoadProgramMakesASeparateCopy : Prop :=
  ∀ (m : Memory) (id : Word),
    (m.mapped id = false → m.loadProgram id = .error .unmappedSegmentAccess) ∧
    (m.mapped id = true → ∃ m', m.loadProgram id = .ok m' ∧
      m'.len? 0#32 = m.len? id ∧ (∀ off, m'.read 0#32 off = m.read id off) ∧
      (∀ j off, j ≠ 0#32 → m'.read j off = m.read j off) ∧ (∀ j, m'.mapped j = m.mapped j) ∧
      (id = 0#32 → m' = m) ∧
      (id ≠ 0#32 → ∀ off v n, m'.write id off v = .ok n → ∀ o, n.read 0#32 o = m'.read 0#32 o) ∧
      (id ≠ 0#32 → ∀ off v n, m'.write 0#32 off v = .ok n → ∀ o, n.read id o = m'.read id o))

/-- 20_memory.md R58 under `alloc_policy = any`: whatever the raw draw, Alloc gives a member of `U` and maps `n` zero words
under it; every member of `U` is given by some draw; it fails exactly when `U` is empty. -/
def Obligations.AnyPolicyDrawsExactlyTheUnusedIdentifiers : Prop :=
  ∀ (s : State) (n : Word), s.cfg.allocPolicy = .any →
    (∀ draw id u, s.allocWithDraw n draw = .ok (id, u) →
      s.allocatable id = true ∧ u.mem.len? id = some n ∧
      (∀ off, off < n → u.mem.read id off = .ok 0#32) ∧ s.SameMemOutside u id) ∧
    (∀ id, s.allocatable id = true → ∃ draw u, s.allocWithDraw n draw = .ok (id, u)) ∧
    (∀ draw, (∀ id, s.allocatable id = false) ↔
      s.allocWithDraw n draw = .error .segmentSpaceExhausted)

/-- 20_memory.md R59: MAP under `lifo` pops the most recently freed identifier, or takes the smallest member of `ID_SPACE`
never handed out and adds it to `used`; with neither it faults. UNMAP's push is stated in `UnmapFreesTheSegmentOrFaults`. -/
def Obligations.LifoReusesTheMostRecentlyFreed : Prop :=
  ∀ (b c : Reg) (s : State), s.cfg.allocPolicy = .lifo →
    (∀ id rest, s.allocator.freed = id :: rest →
      ∃ t, exec (.map b c) s = .next t ∧ t.x b = id ∧ t.mem.len? id = some (s.x c) ∧
        t.allocator = ⟨rest, s.allocator.used⟩) ∧
    (∀ id, s.allocator.freed = [] → idInSpace s.cfg.idSpace id.toNat = true → id ∉ s.allocator.used →
      (∀ j, idInSpace s.cfg.idSpace j.toNat = true → j ∉ s.allocator.used → id ≤ j) →
      ∃ t, exec (.map b c) s = .next t ∧ t.x b = id ∧ t.mem.len? id = some (s.x c) ∧
        t.allocator = ⟨[], id :: s.allocator.used⟩) ∧
    (s.allocator.freed = [] → (∀ j, idInSpace s.cfg.idSpace j.toNat = true → j ∈ s.allocator.used) →
      exec (.map b c) s = .next { s with run := .faulted .segmentSpaceExhausted })

/-- 20_memory.md R59, last sentence, and 45_segment_management.md R180: in a state of the invariant, what Alloc does under
`lifo` is one of the things it can do under `any`: the same identifier and memory for some draw, and exhaustion for exactly
the same states. -/
def Obligations.LifoIsOneOfTheBehavioursOfAny : Prop :=
  ∀ (s : State) (n draw : Word), s.Inv → s.cfg.allocPolicy = .lifo →
    (∀ id u, s.allocWithDraw n draw = .ok (id, u) →
      ∃ d v, { s with cfg := { s.cfg with allocPolicy := .any } }.allocWithDraw n d = .ok (id, v) ∧
        v.mem = u.mem) ∧
    (s.allocWithDraw n draw = .error .segmentSpaceExhausted ↔
      ∀ d, { s with cfg := { s.cfg with allocPolicy := .any } }.allocWithDraw n d =
        .error .segmentSpaceExhausted)

/-- Canonical memories that answer every read alike are the same data: the representation (log 1) adds no distinction of
its own to what 20_memory.md R56 lets the machine see. -/
def Obligations.CanonicalMemoriesThatReadAlikeAreEqual : Prop :=
  ∀ m n : Memory, m.wf → n.wf → (∀ id off, m.read id off = n.read id off) → m = n

/-! ## The step -/

/-- 40_execution_cycle.md R120, R122, R124: in the running state, when the word at (0, pc) decodes to an instruction, the
step is that instruction at that state; nothing is added around it (the pc's advance is the instruction's own). -/
def Obligations.StepRunsTheFetchedInstruction : Prop :=
  ∀ (s : State) (w : Word) (i : Instr), s.run = .running → s.mem.read 0#32 s.pc = .ok w → decode w = .ok i →
    step s = exec i s

/-- 40_execution_cycle.md R121: the end-of-program check before every fetch. -/
def Obligations.EndOfProgramIsCheckedBeforeFetch : Prop :=
  ∀ s : State, s.run = .running →
    (s.pc = s.mem.progLen → step s = .next { s with run := .halted }) ∧
    (s.mem.progLen < s.pc → step s = .next { s with run := .faulted .outOfBoundsOffset }) ∧
    (s.pc < s.mem.progLen → ∃ w, s.mem.read 0#32 s.pc = .ok w)

/-- 40_execution_cycle.md R124, 30_encoding.md R99: a fetched word with opcode 14 or 15 faults; the fault state keeps
everything but the run state. -/
def Obligations.IllegalWordFaultsWhenFetched : Prop :=
  ∀ (s : State) (w : Word), s.run = .running → s.mem.read 0#32 s.pc = .ok w →
    (fieldOf w 28 4 = 14 ∨ fieldOf w 28 4 = 15) →
    step s = .next { s with run := .faulted .invalidOpcode }

/-- 10_state.md R28: `Halted` and `Faulted(kind)` are terminal; there is no next state from either. -/
def Obligations.TerminalStatesTakeNoStep : Prop :=
  ∀ s : State,
    (s.run = .halted → step s = .fault .noStepHalted) ∧
    (∀ k, s.run = .faulted k → step s = .fault (.noStepFaulted k))

/-- 60_exceptions.md R231, R224: a step that faults changes the run state and nothing else. -/
def Obligations.FaultsArePrecise : Prop :=
  ∀ (s t : State) (k : FaultKind), step s = .next t → t.run = .faulted k →
    t = { s with run := .faulted k }

/-- 60_exceptions.md R225, table R221: an instruction raises only the fault kinds the table lists for it; CMOV, ADD, MUL,
NAND, HALT, LOADV, and IN under the default policy never fault. -/
def Obligations.EachInstructionRaisesOnlyItsFaults : Prop :=
  ∀ (i : Instr) (s t : State) (k : FaultKind), s.run = .running → exec i s = .next t → t.run = .faulted k →
    k ∈ faultKinds s.cfg.eofPolicy i

/-- 10_state.md R27: `Halted` is entered by the HALT instruction and by the implicit halt, and by nothing else; everything
but the run state is as before. -/
def Obligations.HaltedIsEnteredByHaltOrAtTheEnd : Prop :=
  ∀ s t : State, step s = .next t → t.run = .halted →
    t = { s with run := .halted } ∧
    (s.pc = s.mem.progLen ∨ ∃ w, s.mem.read 0#32 s.pc = .ok w ∧ decode w = .ok .halt)

/-- 10_state.md R25, R26: after a step that ends in `Running` the pc is one more (without a wrap) for every instruction but
LOADP, for which it is `x[c]`; a held IN leaves it; after HALT, the implicit halt and every fault it is unchanged. -/
def Obligations.PcAdvancesByOneOrIsLoaded : Prop :=
  ∀ s t : State, step s = .next t →
    (t.run ≠ .running → t.pc = s.pc) ∧
    (t.run = .running → ∃ w i, s.mem.read 0#32 s.pc = .ok w ∧ decode w = .ok i ∧
      (∀ b c, i = .loadp b c → t.pc = s.x c) ∧
      ((∀ b c, i ≠ .loadp b c) →
        t.pc.toNat = s.pc.toNat + 1 ∨ ((∃ c, i = .inp c) ∧ s.input.poll = .hold ∧ t = s)))

/-- 10_state.md R21, table R23: an instruction changes no register but the one the table says it writes. -/
def Obligations.OnlyTheDestinationRegisterChanges : Prop :=
  ∀ (i : Instr) (s t : State) (r : Reg), exec i s = .next t → destination i ≠ some r → t.x r = s.x r

/-- 10_state.md table R23: an instruction depends on no register but those the table says it reads: run with the others
changed, it changes the rest of the machine in the same way, and each register ends with the same value or is untouched in
both runs. -/
def Obligations.OnlyTheSourceRegistersAreRead : Prop :=
  ∀ (i : Instr) (s t u : State) (f : RegFile), (∀ r ∈ sources i, f.get r = s.x r) →
    exec i s = .next t → exec i { s with regs := f } = .next u →
    u = { t with regs := u.regs } ∧
    ∀ r, u.x r = t.x r ∨ (t.x r = s.x r ∧ u.x r = f.get r)

/-- 20_memory.md R51: only MAP makes an identifier mapped, the one it returns, and only UNMAP makes one unmapped, the one
it names; right after reset 0 alone is mapped. -/
def Obligations.OnlyMapAndUnmapChangeTheMapping : Prop :=
  (∀ id, State.reset.mem.mapped id = true ↔ id = 0#32) ∧
  ∀ (i : Instr) (s t : State) (id : Word), exec i s = .next t →
    (s.mem.mapped id = false → t.mem.mapped id = true → ∃ b c, i = .map b c ∧ t.x b = id) ∧
    (s.mem.mapped id = true → t.mem.mapped id = false → ∃ c, i = .unmap c ∧ s.x c = id)

/-- 20_memory.md R52: no step changes the length of a segment other than 0 that stays mapped; the length of segment 0
changes only by LOADP. -/
def Obligations.SegmentLengthsAreFixedAtCreation : Prop :=
  ∀ s t : State, s.Inv → step s = .next t →
    (∀ id n k, id ≠ 0#32 → s.mem.len? id = some n → t.mem.len? id = some k → k = n) ∧
    (t.mem.progLen ≠ s.mem.progLen →
      ∃ w b c, s.mem.read 0#32 s.pc = .ok w ∧ decode w = .ok (.loadp b c))

/-- 20_memory.md R76: an SSTORE into the program is seen by the very next fetch of that offset, with no fence; when the
stored word is the next instruction, it is the one executed; the SSTORE's own execution is not affected, even if it
overwrites its own word. -/
def Obligations.StoresIntoTheProgramAreSeenByTheNextFetch : Prop :=
  ∀ (s : State) (w : Word) (a b c : Reg), s.run = .running →
    s.mem.read 0#32 s.pc = .ok w → decode w = .ok (.sstore a b c) →
    s.x a = 0#32 → s.x b < s.mem.progLen →
    ∃ t, step s = .next t ∧ t.run = .running ∧ t.pc = s.pc + 1#32 ∧
      t.mem.read 0#32 (s.x b) = .ok (s.x c) ∧
      (∀ i, s.x b = s.pc + 1#32 → decode (s.x c) = .ok i → step t = exec i t)

/-- 10_state.md R35: OUT alone appends to the output stream, one byte, and nothing removes from it; IN alone touches the
input stream; end of input, once signalled, stays so. -/
def Obligations.OnlyInAndOutTouchTheStreams : Prop :=
  ∀ s t : State, step s = .next t →
    (t.output = s.output ∨
      ∃ w c, s.mem.read 0#32 s.pc = .ok w ∧ decode w = .ok (.out c) ∧
        t.output = s.output ++ [lowByte (s.x c)]) ∧
    (t.input = s.input ∨ ∃ w c, s.mem.read 0#32 s.pc = .ok w ∧ decode w = .ok (.inp c)) ∧
    t.input.bytes = s.input.bytes ∧ (s.input.eofSeen = true → t.input.eofSeen = true)

/-- 46_io.md R185, R186: nothing the machine does depends on what it has written: with another output history the step is
the same step. -/
def Obligations.OutputHistoryIsNeverRead : Prop :=
  ∀ (s : State) (o : List Byte),
    (∀ t, step s = .next t →
      ∃ tail, t.output = s.output ++ tail ∧ step { s with output := o } = .next { t with output := o ++ tail }) ∧
    (∀ k, step s = .fault k → step { s with output := o } = .fault k)

/-- 46_io.md R191: while the device has neither a byte nor end of input, IN changes nothing at all; a byte delivered, or
end of input signalled, lifts the hold, and IN then takes it. -/
def Obligations.HeldInputWaitsForTheDevice : Prop :=
  ∀ (c : Reg) (s : State), s.input.eofSeen = false → s.input.closed = false →
    s.input.pos = s.input.bytes.length →
    exec (.inp c) s = .next s ∧
    (∀ byte, ∃ t, exec (.inp c) (s.deliver byte) = .next t ∧ (t.x c).toNat = byte.toNat ∧
      t.pc = s.pc + 1#32 ∧ t.input.pos = s.input.pos + 1) ∧
    (s.cfg.eofPolicy = .allOnes →
      ∃ t, exec (.inp c) s.closeInput = .next t ∧ t.x c = 0xFFFFFFFF#32 ∧ t.pc = s.pc + 1#32)

/-- 46_io.md R189: once IN has returned end of input, it returns it again at once, whatever bytes the stream lists. -/
def Obligations.EndOfInputIsSticky : Prop :=
  ∀ (c d : Reg) (s t : State), s.cfg.eofPolicy = .allOnes → s.input.poll = .eof → exec (.inp c) s = .next t →
    ∀ u : State, u.input = t.input → u.cfg = t.cfg →
      ∃ v, exec (.inp d) u = .next v ∧ v.x d = 0xFFFFFFFF#32 ∧ v.input = u.input

/-- 40_execution_cycle.md R130: under `alloc_policy = lifo` a step does not depend on the identifier draws. The counter is
the model's own (log 6). -/
def Obligations.LifoStepsIgnoreTheDraws : Prop :=
  ∀ (s : State) (d : Nat), s.cfg.allocPolicy = .lifo →
    ∀ t, step s = .next t → t.draws = s.draws ∧ step { s with draws := d } = .next { t with draws := d }

/-! ## Status and conditions -/

/-- 60_exceptions.md R222, 10_state.md R29: the status port's two fields. -/
def Obligations.StatusPortEncodesTheRunState : Prop :=
  RunState.running.statusCode = 0#2 ∧ RunState.halted.statusCode = 1#2 ∧
  (∀ k, (RunState.faulted k).statusCode = 2#2) ∧ (∀ r : RunState, r.statusCode ≠ 3#2) ∧
  RunState.running.faultCode = 0#4 ∧ RunState.halted.faultCode = 0#4 ∧
  (∀ k, (RunState.faulted k).faultCode = k.code) ∧
  FaultKind.invalidOpcode.code = 1#4 ∧ FaultKind.unmappedSegmentAccess.code = 2#4 ∧
  FaultKind.outOfBoundsOffset.code = 3#4 ∧ FaultKind.divisionByZero.code = 4#4 ∧
  FaultKind.outputOverflow.code = 5#4 ∧ FaultKind.segmentSpaceExhausted.code = 6#4 ∧
  FaultKind.freeOfSegmentZero.code = 7#4 ∧ FaultKind.inputExhausted.code = 8#4 ∧
  ∀ r : RunState, r.faultCode < 9#4

/-- 43_alu.md R165: the two condition outputs: `c_nz` is true unless the register is 0, `c_gt255` exactly when one of its
bits 31:8 is 1. -/
def Obligations.ConditionOutputsTestRegisterC : Prop :=
  ∀ (s : State) (c : Reg),
    (s.cNz c = true ↔ s.x c ≠ 0#32) ∧
    (s.cGt255 c = true ↔ ∃ i, 8 ≤ i ∧ i < 32 ∧ (s.x c).getLsbD i = true)

/-- 43_alu.md R160: the identities programs rely on, for all words. -/
def Obligations.AluIdentitiesHold : Prop :=
  ∀ u v : Word,
    aluNand v v = ~~~v ∧
    aluNand (aluNand v u) (aluNand v u) = v &&& u ∧
    aluNand (aluNand v v) (aluNand u u) = v ||| u ∧
    aluAdd (aluNand v v) 1#32 = -v ∧ aluAdd v (aluAdd (aluNand v v) 1#32) = 0#32 ∧
    aluAdd (aluAdd v (aluNand u u)) 1#32 = v - u ∧
    aluAdd v 0xFFFFFFFF#32 = v - 1#32 ∧
    (u ≠ 0#32 → v - aluMul (aluDiv v u) u = v % u) ∧
    ∀ k, k ≤ 31 → aluMul v (BitVec.ofNat 32 (2 ^ k)) = v <<< k ∧ aluDiv v (BitVec.ofNat 32 (2 ^ k)) = v >>> k

/-- 47_load_program.md R204: the conditional branch idiom. With `x[rz] = 0`, running `LOADV rt, F`; `LOADV ru, T`;
`CMOV rt, ru, rc`; `LOADP rz, rt` continues at `T` when `x[rc] != 0` and at `F` otherwise, memory unchanged. -/
def Obligations.ConditionalBranchIdiomBranches : Prop :=
  ∀ (s : State) (rz rt ru rc : Reg) (onZero onTrue : Word),
    s.x rz = 0#32 → rt ≠ ru → rt ≠ rz → ru ≠ rz → rc ≠ rt → rc ≠ ru →
    onZero ≤ 0x1FFFFFF#32 → onTrue ≤ 0x1FFFFFF#32 →
    ∃ s1 s2 s3 s4,
      exec (.loadv rt onZero) s = .next s1 ∧ exec (.loadv ru onTrue) s1 = .next s2 ∧
      exec (.cmov rt ru rc) s2 = .next s3 ∧ exec (.loadp rz rt) s3 = .next s4 ∧
      s4.pc = (if s.x rc ≠ 0#32 then onTrue else onZero) ∧ s4.mem = s.mem

/-! ## Invariants -/

/-- Every step from a state of the invariant (canonical memory; allocator in order, 20_memory.md R58, R59, R61; input
position in range, 10_state.md R35) leads to one, and keeps the configuration. -/
def Obligations.EveryStepKeepsTheInvariant : Prop :=
  ∀ s t : State, s.Inv → step s = .next t → t.Inv ∧ t.cfg = s.cfg

/-- The state after reset meets the invariant. -/
def Obligations.ResetMeetsTheInvariant : Prop := State.reset.Inv

/-- Every state of every run of a booted machine meets the invariant, keeps its configuration, and has segment 0 mapped
(10_state.md R33; built into the type of memory, log 2); the input stream is still the one it was given. -/
def Obligations.EveryStateOfABootedRunMeetsTheInvariant : Prop :=
  ∀ (cfg : Config) (file bytes : List Byte) (closed : Bool) (s t : State) (n : Nat),
    State.boot cfg file bytes closed = .ok s → State.After n s t →
    t.Inv ∧ t.cfg = cfg ∧ t.mem.mapped 0#32 = true ∧ t.input.bytes = bytes ∧ t.input.closed = closed

/-- Log 13: a word placed for the next fetch that decodes to an instruction is the one the next step runs, whatever the
state was. -/
def Obligations.APlacedWordIsTheNextInstruction : Prop :=
  ∀ (s : State) (w : Nat) (i : Instr), decodeTableWord 32 w = some i →
    step (s.withFetchWord 32 w) = exec i (s.withFetchWord 32 w)
end

