-- ==== Sys2Proof/Laws/Cells.lean ====
section
/-! SUPPORT. The laws of the sorted key-value lists: read after insert and erase, the order of keys kept, and lists with
rising keys determined by what they list. -/

namespace Sys2Proof.Machine.Cells

variable {α : Type}

@[simp] theorem find?_nil (k : Nat) : find? ([] : List (Nat × α)) k = none := rfl

@[simp] theorem find?_insert_self (l : List (Nat × α)) (k : Nat) (v : α) : find? (insert l k v) k = some v := by
  induction l with
  | nil => simp [insert, find?]
  | cons c rest ih =>
    obtain ⟨j, u⟩ := c
    simp only [insert]
    split
    · simp [find?]
    · split
      · simp [find?]
      · next h _ => simp [find?, h, ih]

theorem find?_insert_ne (l : List (Nat × α)) {k q : Nat} (v : α) (h : q ≠ k) :
    find? (insert l k v) q = find? l q := by
  induction l with
  | nil => simp [insert, find?, h]
  | cons c rest ih =>
    obtain ⟨j, u⟩ := c
    simp only [insert]
    split
    · next hk => subst hk; simp [find?, h]
    · split
      · simp [find?, h]
      · simp [find?, ih]

@[simp] theorem find?_erase_self (l : List (Nat × α)) (k : Nat) : find? (erase l k) k = none := by
  induction l with
  | nil => rfl
  | cons c rest ih =>
    obtain ⟨j, u⟩ := c
    simp only [erase]
    split
    · exact ih
    · next h => simp [find?, h, ih]

theorem find?_erase_ne (l : List (Nat × α)) {k q : Nat} (h : q ≠ k) : find? (erase l k) q = find? l q := by
  induction l with
  | nil => rfl
  | cons c rest ih =>
    obtain ⟨j, u⟩ := c
    simp only [erase]
    split
    · next hk => subst hk; simp [find?, h, ih]
    · simp [find?, ih]

theorem mem_of_find? {l : List (Nat × α)} {k : Nat} {v : α} (h : find? l k = some v) : (k, v) ∈ l := by
  induction l with
  | nil => simp at h
  | cons c rest ih =>
    obtain ⟨j, u⟩ := c
    simp only [find?] at h
    split at h
    · next hk => subst hk; cases h; simp
    · exact List.mem_cons_of_mem _ (ih h)

theorem mem_keys_of_mem {l : List (Nat × α)} {c : Nat × α} (h : c ∈ l) : c.1 ∈ keys l :=
  List.mem_map_of_mem h

theorem find?_isSome_iff (l : List (Nat × α)) (k : Nat) : (find? l k).isSome ↔ k ∈ keys l := by
  induction l with
  | nil => simp [keys]
  | cons c rest ih =>
    obtain ⟨j, u⟩ := c
    simp only [find?, keys, List.map_cons, List.mem_cons]
    split
    · next hk => simp [hk]
    · next hk => rw [ih]; simp [hk, keys]

/-- What an insert lists: the new pair, and pairs that stood there. -/
theorem mem_insert {l : List (Nat × α)} {k : Nat} {v : α} {c : Nat × α} (h : c ∈ insert l k v) :
    c = (k, v) ∨ c ∈ l := by
  induction l with
  | nil => simpa [insert] using h
  | cons d rest ih =>
    obtain ⟨j, u⟩ := d
    simp only [insert] at h
    split at h
    · rcases List.mem_cons.1 h with h | h
      · exact .inl h
      · exact .inr (List.mem_cons_of_mem _ h)
    · split at h
      · rcases List.mem_cons.1 h with h | h
        · exact .inl h
        · exact .inr h
      · rcases List.mem_cons.1 h with h | h
        · exact .inr (h ▸ List.mem_cons_self)
        · exact (ih h).imp_right (List.mem_cons_of_mem _)

theorem mem_erase {l : List (Nat × α)} {k : Nat} {c : Nat × α} : c ∈ erase l k ↔ c ∈ l ∧ c.1 ≠ k := by
  induction l with
  | nil => simp [erase]
  | cons d rest ih =>
    obtain ⟨j, u⟩ := d
    simp only [erase]
    split
    · next hk =>
      subst hk
      rw [ih, List.mem_cons]
      constructor
      · exact fun h => ⟨.inr h.1, h.2⟩
      · rintro ⟨rfl | h, hne⟩
        · exact absurd rfl hne
        · exact ⟨h, hne⟩
    · next hk =>
      rw [List.mem_cons, List.mem_cons, ih]
      constructor
      · rintro (rfl | h)
        · exact ⟨.inl rfl, fun e => hk e.symm⟩
        · exact ⟨.inr h.1, h.2⟩
      · rintro ⟨rfl | h, hne⟩
        · exact .inl rfl
        · exact .inr ⟨h, hne⟩

theorem rising_insert {l : List (Nat × α)} (k : Nat) (v : α) (h : Rising l) : Rising (insert l k v) := by
  induction l with
  | nil => simp [insert, Rising]
  | cons c rest ih =>
    obtain ⟨j, u⟩ := c
    obtain ⟨hhead, hrest⟩ := List.pairwise_cons.1 h
    simp only [insert]
    split
    · next hk => subst hk; exact List.pairwise_cons.2 ⟨hhead, hrest⟩
    · split
      · next hlt =>
        refine List.pairwise_cons.2 ⟨fun c hc => ?_, h⟩
        rcases List.mem_cons.1 hc with rfl | hc
        · exact hlt
        · exact lt_trans hlt (hhead c hc)
      · next hne hlt =>
        refine List.pairwise_cons.2 ⟨fun c hc => ?_, ih hrest⟩
        rcases mem_insert hc with rfl | hc
        · show j < k
          omega
        · exact hhead c hc

theorem rising_erase {l : List (Nat × α)} (k : Nat) (h : Rising l) : Rising (erase l k) := by
  induction l with
  | nil => simp [erase]
  | cons c rest ih =>
    obtain ⟨j, u⟩ := c
    obtain ⟨hhead, hrest⟩ := List.pairwise_cons.1 h
    simp only [erase]
    split
    · exact ih hrest
    · exact List.pairwise_cons.2 ⟨fun c hc => hhead c (mem_erase.1 hc).1, ih hrest⟩

/-- In a rising list every listed pair is found. -/
theorem find?_of_mem {l : List (Nat × α)} (h : Rising l) {c : Nat × α} (hc : c ∈ l) : find? l c.1 = some c.2 := by
  induction l with
  | nil => simp at hc
  | cons d rest ih =>
    obtain ⟨hhead, hrest⟩ := List.pairwise_cons.1 h
    rcases List.mem_cons.1 hc with rfl | hc
    · simp [find?]
    · have hne : c.1 ≠ d.1 := (hhead c hc).ne'
      simp [find?, hne, ih hrest hc]

/-- Rising lists that find the same values under every key are the same list. -/
theorem eq_of_find?_eq {l m : List (Nat × α)} (hl : Rising l) (hm : Rising m)
    (h : ∀ k, find? l k = find? m k) : l = m := by
  have sub : ∀ {a b : List (Nat × α)}, Rising a → (∀ k, find? a k = find? b k) → ∀ c ∈ a, c ∈ b :=
    fun ha hab c hc => mem_of_find? ((hab c.1).symm.trans (find?_of_mem ha hc))
  have anti : ∀ {a : List (Nat × α)}, Rising a → a.Nodup := fun ha =>
    ha.imp fun hlt heq => absurd (congrArg Prod.fst heq) (Nat.ne_of_lt hlt)
  have perm : l.Perm m := (List.perm_ext_iff_of_nodup (anti hl) (anti hm)).2 fun c =>
    ⟨sub hl h c, sub hm (fun k => (h k).symm) c⟩
  exact perm.eq_of_pairwise (fun a b _ _ hab hba => absurd hab (Nat.lt_asymm hba)) hl hm

end Sys2Proof.Machine.Cells
end

