-- ==== Sys2Proof/Laws/Memory.lean ====
section
/-! SUPPORT. The laws of the segmented memory: what each operation answers, said once; reads after writes; and that
every operation keeps the canonical form. -/

namespace Sys2Proof.Machine

/-! ## Segments -/

@[simp] theorem Segment.zeros_len (n : Word) : (Segment.zeros n).len = n := rfl
@[simp] theorem Segment.zeros_word (n off : Word) : (Segment.zeros n).word off = 0#32 := rfl
@[simp] theorem Segment.setWord_len (g : Segment) (off v : Word) : (g.setWord off v).len = g.len := rfl

@[simp] theorem Segment.setWord_word_self (g : Segment) (off v : Word) : (g.setWord off v).word off = v := by
  unfold Segment.setWord Segment.word
  split <;> simp_all

theorem Segment.setWord_word_ne (g : Segment) {off j : Word} (v : Word) (h : j ≠ off) :
    (g.setWord off v).word j = g.word j := by
  have hn : j.toNat ≠ off.toNat := fun e => h (BitVec.eq_of_toNat_eq e)
  unfold Segment.setWord Segment.word
  split
  · simp [Cells.find?_erase_ne _ hn]
  · simp [Cells.find?_insert_ne _ _ hn]

theorem Segment.zeros_wf (n : Word) : (Segment.zeros n).wf := by simp [Segment.zeros, Segment.wf]

theorem Segment.setWord_wf {g : Segment} {off : Word} (v : Word) (h : g.wf) (hoff : off < g.len) :
    (g.setWord off v).wf := by
  unfold Segment.setWord
  split
  · exact ⟨Cells.rising_erase _ h.1, fun c hc => h.2 c (Cells.mem_erase.1 hc).1⟩
  · next hv =>
    refine ⟨Cells.rising_insert _ _ h.1, fun c hc => ?_⟩
    rcases Cells.mem_insert hc with rfl | hc
    · exact ⟨BitVec.lt_def.1 hoff, hv⟩
    · exact h.2 c hc

/-- The cells of a word list lie between its start and its end and are not 0. -/
theorem Segment.mem_cellsFrom {ws : List Word} {start : Nat} {c : Nat × Word} (h : c ∈ Segment.cellsFrom ws start) :
    start ≤ c.1 ∧ c.1 < start + ws.length ∧ c.2 ≠ 0#32 := by
  induction ws generalizing start with
  | nil => simp [Segment.cellsFrom] at h
  | cons w rest ih =>
    simp only [Segment.cellsFrom] at h
    split at h
    · have := ih h
      simp only [List.length_cons]
      exact ⟨by omega, by omega, this.2.2⟩
    · next hw =>
      rcases List.mem_cons.1 h with rfl | h
      · exact ⟨Nat.le_refl _, by simp, hw⟩
      · have := ih h
        simp only [List.length_cons]
        exact ⟨by omega, by omega, this.2.2⟩

theorem Segment.cellsFrom_rising (ws : List Word) (start : Nat) : Cells.Rising (Segment.cellsFrom ws start) := by
  induction ws generalizing start with
  | nil => simp [Segment.cellsFrom]
  | cons w rest ih =>
    simp only [Segment.cellsFrom]
    split
    · exact ih _
    · exact List.pairwise_cons.2 ⟨fun c hc => (Segment.mem_cellsFrom hc).1, ih _⟩

/-- The cell list of a word list finds the words of the list. -/
theorem Segment.find?_cellsFrom (ws : List Word) (start k : Nat) :
    (Cells.find? (Segment.cellsFrom ws start) (start + k)).getD 0#32 = ws[k]?.getD 0#32 := by
  induction ws generalizing start k with
  | nil => simp [Segment.cellsFrom]
  | cons w rest ih =>
    simp only [Segment.cellsFrom]
    cases k with
    | zero =>
      split
      · next hw =>
        have hnone : Cells.find? (Segment.cellsFrom rest (start + 1)) (start + 0) = none := by
          rw [← Option.not_isSome_iff_eq_none, Cells.find?_isSome_iff]
          intro hk
          obtain ⟨c, hc, he⟩ := List.mem_map.1 hk
          have := (Segment.mem_cellsFrom hc).1
          omega
        simp [show Cells.find? (Segment.cellsFrom rest (start + 1)) start = none from hnone, hw]
      · simp [Cells.find?]
    | succ k =>
      have hstep := ih (start + 1) k
      rw [show start + 1 + k = start + (k + 1) by omega] at hstep
      split
      · simpa using hstep
      · simpa [Cells.find?] using hstep

theorem Segment.ofWords_wf {ws : List Word} (h : ws.length < 2 ^ 32) : (Segment.ofWords ws).wf := by
  refine ⟨Segment.cellsFrom_rising _ _, fun c hc => ?_⟩
  have hm := Segment.mem_cellsFrom hc
  have hl : (Segment.ofWords ws).len.toNat = ws.length := by
    simp only [Segment.ofWords, BitVec.toNat_ofNat]
    omega
  exact ⟨by omega, hm.2.2⟩

@[simp] theorem Segment.ofWords_word (ws : List Word) (off : Word) :
    (Segment.ofWords ws).word off = ws[off.toNat]?.getD 0#32 := by
  simpa [Segment.ofWords, Segment.word] using Segment.find?_cellsFrom ws 0 off.toNat

/-! ## The memory map -/

@[simp] theorem Memory.seg?_zero (m : Memory) : m.seg? 0#32 = some m.program := rfl

theorem Memory.seg?_ne_zero (m : Memory) {id : Word} (h : id ≠ 0#32) : m.seg? id = Cells.find? m.segs id.toNat := by
  simp [Memory.seg?, h]

@[simp] theorem Memory.mapped_zero (m : Memory) : m.mapped 0#32 = true := rfl

@[simp] theorem Memory.setSeg_seg?_self (m : Memory) (id : Word) (g : Segment) : (m.setSeg id g).seg? id = some g := by
  unfold Memory.setSeg Memory.seg?
  split <;> simp

theorem Memory.setSeg_seg?_ne (m : Memory) {id j : Word} (g : Segment) (h : j ≠ id) :
    (m.setSeg id g).seg? j = m.seg? j := by
  have hn : j.toNat ≠ id.toNat := fun e => h (BitVec.eq_of_toNat_eq e)
  unfold Memory.setSeg Memory.seg?
  by_cases hid : id = 0#32
  · subst hid
    simp [h]
  · simp only [hid, if_false]
    split
    · rfl
    · exact Cells.find?_insert_ne _ _ hn

/-- A mapped identifier beside 0 is one of the listed ones. -/
theorem Memory.mapped_iff_mem_ids (m : Memory) {id : Word} (h : id ≠ 0#32) : m.mapped id = true ↔ id.toNat ∈ m.ids := by
  unfold Memory.mapped Memory.ids
  rw [Memory.seg?_ne_zero m h]
  exact Cells.find?_isSome_iff _ _

theorem Memory.seg?_wf {m : Memory} {id : Word} {g : Segment} (h : m.wf) (hg : m.seg? id = some g) : g.wf := by
  unfold Memory.seg? at hg
  split at hg
  · cases hg; exact h.1
  · exact (h.2.2 _ (Cells.mem_of_find? hg)).2.2

theorem Memory.setSeg_wf {m : Memory} (id : Word) {g : Segment} (h : m.wf) (hg : g.wf) : (m.setSeg id g).wf := by
  unfold Memory.setSeg
  split
  · exact ⟨hg, h.2⟩
  · next hid =>
    refine ⟨h.1, Cells.rising_insert _ _ h.2.1, fun e he => ?_⟩
    rcases Cells.mem_insert he with rfl | he
    · have hpos : id.toNat ≠ 0 := fun e => hid (BitVec.eq_of_toNat_eq e)
      exact ⟨Nat.pos_of_ne_zero hpos, id.isLt, hg⟩
    · exact h.2.2 e he

/-! ## What each operation answers -/

/-- Everything `MemRead` can do: it reads a word of a mapped segment below its length, and faults otherwise. -/
theorem Memory.read_eq_ok_iff (m : Memory) (id off v : Word) :
    m.read id off = .ok v ↔ ∃ g, m.seg? id = some g ∧ off < g.len ∧ g.word off = v := by
  unfold Memory.read
  cases m.seg? id with
  | none => simp
  | some g =>
    simp only [Option.some.injEq, exists_eq_left']
    split <;> simp_all

theorem Memory.read_of_seg? {m : Memory} {id : Word} {g : Segment} (hg : m.seg? id = some g) (off : Word) :
    m.read id off = if off < g.len then .ok (g.word off) else .error .outOfBoundsOffset := by
  simp [Memory.read, hg]

/-- Equal segments read alike. -/
theorem Memory.read_congr {m n : Memory} {id : Word} (h : m.seg? id = n.seg? id) (off : Word) :
    m.read id off = n.read id off := by
  simp [Memory.read, h]

/-- Everything `MemWrite` can do when it succeeds. -/
theorem Memory.write_eq_ok {m m' : Memory} {id off v : Word} (h : m.write id off v = .ok m') :
    ∃ g, m.seg? id = some g ∧ off < g.len ∧ m' = m.setSeg id (g.setWord off v) := by
  unfold Memory.write at h
  cases hg : m.seg? id with
  | none => simp [hg] at h
  | some g =>
    simp only [hg] at h
    split at h
    · next hlt => cases h; exact ⟨g, rfl, hlt, rfl⟩
    · cases h

/-- `MemWrite` faults exactly as `MemRead` of the same address does (R56, R57). -/
theorem Memory.write_eq_error_iff (m : Memory) (id off v : Word) (k : FaultKind) :
    m.write id off v = .error k ↔ m.read id off = .error k := by
  unfold Memory.write Memory.read
  cases m.seg? id with
  | none => simp
  | some g =>
    simp only
    split <;> simp

/-- Everything `Free` can do to the memory when it succeeds. -/
theorem Memory.free_eq_ok {m m' : Memory} {id : Word} (h : m.free id = .ok m') :
    id ≠ 0#32 ∧ m.mapped id = true ∧ m' = { m with segs := Cells.erase m.segs id.toNat } := by
  unfold Memory.free at h
  split at h
  · cases h
  · next hid =>
    split at h
    · next hm => cases h; exact ⟨hid, hm, rfl⟩
    · cases h

theorem Memory.free_seg?_self {m m' : Memory} {id : Word} (h : m.free id = .ok m') : m'.seg? id = none := by
  obtain ⟨hid, -, rfl⟩ := Memory.free_eq_ok h
  simp [Memory.seg?, hid]

theorem Memory.free_seg?_ne {m m' : Memory} {id j : Word} (h : m.free id = .ok m') (hj : j ≠ id) :
    m'.seg? j = m.seg? j := by
  obtain ⟨-, -, rfl⟩ := Memory.free_eq_ok h
  have hn : j.toNat ≠ id.toNat := fun e => hj (BitVec.eq_of_toNat_eq e)
  simp [Memory.seg?, Cells.find?_erase_ne _ hn]

/-- Everything `LoadProgram` can do when it succeeds. -/
theorem Memory.loadProgram_eq_ok {m m' : Memory} {id : Word} (h : m.loadProgram id = .ok m') :
    ∃ g, m.seg? id = some g ∧ m' = { m with program := g } := by
  unfold Memory.loadProgram at h
  cases hg : m.seg? id with
  | none => simp [hg] at h
  | some g => simp only [hg] at h; cases h; exact ⟨g, rfl, rfl⟩

/-! ## The canonical form is kept -/

theorem Memory.write_wf {m m' : Memory} {id off v : Word} (hm : m.wf) (h : m.write id off v = .ok m') : m'.wf := by
  obtain ⟨g, hg, hlt, rfl⟩ := Memory.write_eq_ok h
  exact Memory.setSeg_wf id hm (Segment.setWord_wf v (Memory.seg?_wf hm hg) hlt)

theorem Memory.free_wf {m m' : Memory} {id : Word} (hm : m.wf) (h : m.free id = .ok m') : m'.wf := by
  obtain ⟨-, -, rfl⟩ := Memory.free_eq_ok h
  exact ⟨hm.1, Cells.rising_erase _ hm.2.1, fun e he => hm.2.2 e (Cells.mem_erase.1 he).1⟩

theorem Memory.loadProgram_wf {m m' : Memory} {id : Word} (hm : m.wf) (h : m.loadProgram id = .ok m') : m'.wf := by
  obtain ⟨g, hg, rfl⟩ := Memory.loadProgram_eq_ok h
  exact ⟨Memory.seg?_wf hm hg, hm.2⟩

theorem State.reset_mem_wf : State.reset.mem.wf := by decide

theorem Memory.zeros_wf {m : Memory} (id n : Word) (hm : m.wf) : (m.setSeg id (Segment.zeros n)).wf :=
  Memory.setSeg_wf id hm (Segment.zeros_wf n)

end Sys2Proof.Machine
end

