-- ==== Sys2Proof/Laws/Allocation.lean ====
section
/-! SUPPORT. The laws of identifier choice: the search finds the smallest untaken member of `ID_SPACE` whenever there is
one, and everything Alloc and Free can do when they succeed. -/

namespace Sys2Proof.Machine

/-- Everything the scan can do: a found number is the smallest untaken one of its range; none means all are taken. -/
theorem scanUntaken_spec (hi fuel cand : Nat) (taken : List Nat) (hfuel : taken.length < fuel) :
    match scanUntaken hi fuel cand taken with
    | some i => cand ≤ i ∧ i ≤ hi ∧ i ∉ taken ∧ ∀ j, cand ≤ j → j < i → j ∈ taken
    | none => ∀ j, cand ≤ j → j ≤ hi → j ∈ taken := by
  induction fuel generalizing cand taken with
  | zero => omega
  | succ fuel ih =>
    simp only [scanUntaken]
    by_cases hhi : hi < cand
    · simp only [hhi, if_true]
      intro j h1 h2
      omega
    by_cases hmem : cand ∈ taken
    · simp only [hhi, hmem, if_true, if_false]
      have hlt : (taken.filter (· ≠ cand)).length < taken.length :=
        List.length_filter_lt_length_iff_exists.2 ⟨cand, hmem, by simp⟩
      have hs := ih (cand + 1) (taken.filter (· ≠ cand)) (by omega)
      have hiff : ∀ j, cand + 1 ≤ j → (j ∈ taken.filter (· ≠ cand) ↔ j ∈ taken) := by
        intro j hj
        simp only [List.mem_filter, decide_eq_true_eq, and_iff_left_iff_imp]
        intro _
        omega
      revert hs
      cases scanUntaken hi fuel (cand + 1) (taken.filter (· ≠ cand)) with
      | none =>
        intro hs j h1 h2
        rcases Nat.eq_or_lt_of_le h1 with rfl | h1
        · exact hmem
        · exact (hiff j h1).1 (hs j h1 h2)
      | some i =>
        rintro ⟨h1, h2, h3, h4⟩
        refine ⟨by omega, h2, fun h => h3 ((hiff i h1).2 h), fun j hj hji => ?_⟩
        rcases Nat.eq_or_lt_of_le hj with rfl | hj
        · exact hmem
        · exact (hiff j hj).1 (h4 j hj hji)
    · simp only [hhi, hmem, if_false]
      exact ⟨Nat.le_refl _, by omega, not_false, fun j h1 h2 => by omega⟩

theorem idInRange_iff (r : IdRange) (i : Nat) : idInRange r i = true ↔ 0 < i ∧ r.lo.toNat ≤ i ∧ i ≤ r.hi.toNat := by
  simp [idInRange]

theorem idInSpace_cons (r : IdRange) (rest : List IdRange) (i : Nat) :
    idInSpace (r :: rest) i = true ↔ idInRange r i = true ∨ idInSpace rest i = true := by
  simp [idInSpace]

/-- A member of `ID_SPACE` is in 1 .. 2^32 − 1 (00_scope.md R8). -/
theorem idInSpace_bounds {space : List IdRange} {i : Nat} (h : idInSpace space i = true) : 0 < i ∧ i < 2 ^ 32 := by
  obtain ⟨r, -, hr⟩ := List.any_eq_true.1 h
  have := (idInRange_iff r i).1 hr
  exact ⟨this.1, Nat.lt_of_le_of_lt this.2.2 r.hi.isLt⟩

/-- Everything the search can do: it finds the smallest untaken member of `ID_SPACE` from `start` on, or there is none. -/
theorem smallestUntaken_spec (space : List IdRange) (taken : List Nat) (start : Nat) :
    match smallestUntaken space taken start with
    | some i => start ≤ i ∧ idInSpace space i = true ∧ i ∉ taken ∧
        ∀ j, start ≤ j → idInSpace space j = true → j ∉ taken → i ≤ j
    | none => ∀ j, start ≤ j → idInSpace space j = true → j ∈ taken := by
  induction space with
  | nil => simp [smallestUntaken, idInSpace]
  | cons r rest ih =>
    have hscan := scanUntaken_spec r.hi.toNat (taken.length + 1) (max (max r.lo.toNat 1) start) taken (by omega)
    simp only [smallestUntaken]
    revert hscan ih
    cases scanUntaken r.hi.toNat (taken.length + 1) (max (max r.lo.toNat 1) start) taken with
    | none =>
      intro ih hscan
      have hr : ∀ j, start ≤ j → idInRange r j = true → j ∈ taken := fun j hj hjr => by
        have := (idInRange_iff r j).1 hjr
        exact hscan j (by omega) this.2.2
      revert ih
      cases smallestUntaken rest taken start with
      | none =>
        intro ih
        simp only [minOption]
        intro j hj hjs
        rcases (idInSpace_cons r rest j).1 hjs with h | h
        · exact hr j hj h
        · exact ih j hj h
      | some i =>
        rintro ⟨h1, h2, h3, h4⟩
        simp only [minOption]
        refine ⟨h1, (idInSpace_cons r rest i).2 (.inr h2), h3, fun j hj hjs hjt => ?_⟩
        rcases (idInSpace_cons r rest j).1 hjs with h | h
        · exact absurd (hr j hj h) hjt
        · exact h4 j hj h hjt
    | some a =>
      rintro ih ⟨ha1, ha2, ha3, ha4⟩
      have har : idInRange r a = true := (idInRange_iff r a).2 (by omega)
      have hr : ∀ j, start ≤ j → idInRange r j = true → j ∉ taken → a ≤ j := fun j hj hjr hjt => by
        have := (idInRange_iff r j).1 hjr
        by_contra hlt
        exact hjt (ha4 j (by omega) (by omega))
      revert ih
      cases smallestUntaken rest taken start with
      | none =>
        intro ih
        simp only [minOption]
        refine ⟨by omega, (idInSpace_cons r rest a).2 (.inl har), ha3, fun j hj hjs hjt => ?_⟩
        rcases (idInSpace_cons r rest j).1 hjs with h | h
        · exact hr j hj h hjt
        · exact absurd (ih j hj h) hjt
      | some i =>
        rintro ⟨h1, h2, h3, h4⟩
        simp only [minOption]
        refine ⟨by omega, ?_, ?_, fun j hj hjs hjt => ?_⟩
        · rcases Nat.le_total a i with h | h
          · rw [Nat.min_eq_left h]; exact (idInSpace_cons r rest a).2 (.inl har)
          · rw [Nat.min_eq_right h]; exact (idInSpace_cons r rest i).2 (.inr h2)
        · rcases Nat.le_total a i with h | h
          · rwa [Nat.min_eq_left h]
          · rwa [Nat.min_eq_right h]
        · rcases (idInSpace_cons r rest j).1 hjs with h | h
          · exact Nat.le_trans (Nat.min_le_left _ _) (hr j hj h hjt)
          · exact Nat.le_trans (Nat.min_le_right _ _) (h4 j hj h hjt)

theorem smallestUntaken_some {space : List IdRange} {taken : List Nat} {start i : Nat}
    (h : smallestUntaken space taken start = some i) :
    start ≤ i ∧ idInSpace space i = true ∧ i ∉ taken ∧
      ∀ j, start ≤ j → idInSpace space j = true → j ∉ taken → i ≤ j := by
  have := smallestUntaken_spec space taken start
  rwa [h] at this

theorem smallestUntaken_none {space : List IdRange} {taken : List Nat} {start : Nat}
    (h : smallestUntaken space taken start = none) : ∀ j, start ≤ j → idInSpace space j = true → j ∈ taken := by
  have := smallestUntaken_spec space taken start
  rwa [h] at this

/-- Membership in `U`, in numbers: in `ID_SPACE` and not among the mapped identifiers. -/
theorem State.allocatable_iff (s : State) (id : Word) :
    s.allocatable id = true ↔ idInSpace s.cfg.idSpace id.toNat = true ∧ id.toNat ∉ s.mem.ids := by
  unfold State.allocatable
  simp only [Bool.and_eq_true, Bool.not_eq_true', and_congr_right_iff]
  intro hsp
  have hid : id ≠ 0#32 := by
    rintro rfl
    have := (idInSpace_bounds hsp).1
    simp at this
  rw [← Memory.mapped_iff_mem_ids s.mem hid]
  simp

/-- An allocatable identifier is neither 0 nor mapped (R61). -/
theorem State.allocatable_ne_zero {s : State} {id : Word} (h : s.allocatable id = true) :
    id ≠ 0#32 ∧ s.mem.mapped id = false := by
  have hsp := ((State.allocatable_iff s id).1 h).1
  refine ⟨?_, by simpa [State.allocatable, hsp] using h⟩
  rintro rfl
  have := (idInSpace_bounds hsp).1
  simp at this

theorem toNat_ofNat_of_idInSpace {space : List IdRange} {i : Nat} (h : idInSpace space i = true) :
    (BitVec.ofNat 32 i).toNat = i := by
  have := (idInSpace_bounds h).2
  rw [BitVec.toNat_ofNat]
  exact Nat.mod_eq_of_lt this

/-- Every draw gives a member of `U`; only an empty `U` gives none. -/
theorem State.drawnIdentifier_spec (s : State) (draw : Word) :
    match s.drawnIdentifier draw with
    | some id => s.allocatable id = true
    | none => ∀ id, s.allocatable id = false := by
  unfold State.drawnIdentifier
  cases h0 : smallestUntaken s.cfg.idSpace s.mem.ids 0 with
  | none =>
    simp only
    intro id
    by_contra hne
    have ha := (State.allocatable_iff s id).1 (by simpa using hne)
    exact ha.2 (smallestUntaken_none h0 _ (Nat.zero_le _) ha.1)
  | some least =>
    simp only
    cases h1 : smallestUntaken s.cfg.idSpace s.mem.ids draw.toNat with
    | none =>
      have := smallestUntaken_some h0
      simp only [Option.getD_none]
      rw [State.allocatable_iff, toNat_ofNat_of_idInSpace this.2.1]
      exact ⟨this.2.1, this.2.2.1⟩
    | some i =>
      have := smallestUntaken_some h1
      simp only [Option.getD_some]
      rw [State.allocatable_iff, toNat_ofNat_of_idInSpace this.2.1]
      exact ⟨this.2.1, this.2.2.1⟩

/-- A draw that is itself in `U` is the identifier it gives: every member of `U` can be drawn. -/
theorem State.drawnIdentifier_self {s : State} {id : Word} (h : s.allocatable id = true) :
    s.drawnIdentifier id = some id := by
  have ha := (State.allocatable_iff s id).1 h
  unfold State.drawnIdentifier
  cases h0 : smallestUntaken s.cfg.idSpace s.mem.ids 0 with
  | none => exact absurd (smallestUntaken_none h0 _ (Nat.zero_le _) ha.1) ha.2
  | some least =>
    cases h1 : smallestUntaken s.cfg.idSpace s.mem.ids id.toNat with
    | none => exact absurd (smallestUntaken_none h1 _ (Nat.le_refl _) ha.1) ha.2
    | some i =>
      have := smallestUntaken_some h1
      have he : i = id.toNat := Nat.le_antisymm (this.2.2.2 _ (Nat.le_refl _) ha.1 ha.2) this.1
      simp [he]

/-- Everything Alloc can do when it succeeds: a new segment of zeros under the identifier it returns; beside that, only
the bookkeeping or the draw counter moves. -/
theorem State.allocWithDraw_eq_ok {s t : State} {n draw id : Word} (h : s.allocWithDraw n draw = .ok (id, t)) :
    (s.cfg.allocPolicy = .any ∧ s.drawnIdentifier draw = some id ∧
      t = { s with mem := s.mem.setSeg id (Segment.zeros n), draws := s.draws + 1 }) ∨
    (∃ book, s.cfg.allocPolicy = .lifo ∧ s.lifoIdentifier = some (id, book) ∧
      t = { s with mem := s.mem.setSeg id (Segment.zeros n), allocator := book }) := by
  unfold State.allocWithDraw at h
  cases hp : s.cfg.allocPolicy with
  | any =>
    simp only [hp] at h
    cases hd : s.drawnIdentifier draw with
    | none => simp [hd] at h
    | some i => simp only [hd] at h; cases h; exact .inl ⟨rfl, rfl, rfl⟩
  | lifo =>
    simp only [hp] at h
    cases hd : s.lifoIdentifier with
    | none => simp [hd] at h
    | some r => obtain ⟨i, book⟩ := r; simp only [hd] at h; cases h; exact .inr ⟨book, rfl, rfl, rfl⟩

/-- Alloc's only fault (R58). -/
theorem State.allocWithDraw_eq_error {s : State} {n draw : Word} {k : FaultKind}
    (h : s.allocWithDraw n draw = .error k) : k = .segmentSpaceExhausted := by
  unfold State.allocWithDraw at h
  split at h <;> split at h <;> cases h <;> rfl

/-- Everything Free can do when it succeeds: one segment leaves the memory; under `lifo` its identifier is pushed. -/
theorem State.free_eq_ok {s t : State} {id : Word} (h : s.free id = .ok t) :
    ∃ m, s.mem.free id = .ok m ∧
      ((s.cfg.allocPolicy = .any ∧ t = { s with mem := m }) ∨
       (s.cfg.allocPolicy = .lifo ∧
        t = { s with mem := m, allocator := { s.allocator with freed := id :: s.allocator.freed } })) := by
  unfold State.free at h
  cases hm : s.mem.free id with
  | error k => simp [hm] at h
  | ok m =>
    simp only [hm] at h
    cases hp : s.cfg.allocPolicy with
    | any => simp only [hp] at h; cases h; exact ⟨m, rfl, .inl ⟨rfl, rfl⟩⟩
    | lifo => simp only [hp] at h; cases h; exact ⟨m, rfl, .inr ⟨rfl, rfl⟩⟩

end Sys2Proof.Machine
end

