-- ==== Sys2Proof/Laws/Decode.lean ====
section
/-! SUPPORT. The laws of the decoder: the fields of the two word formats, and the decoder one opcode at a time. -/

namespace Sys2Proof

theorem fieldOf_lt (w : Word) (lsb width : Nat) : fieldOf w lsb width < 2 ^ width :=
  Nat.mod_lt _ (Nat.two_pow_pos width)

@[simp] theorem regField_val (w : Word) (lsb : Nat) : (regField w lsb).val = fieldOf w lsb 3 := rfl

/-- A three-register word as a number (30_encoding.md R103). -/
theorem threeRegWord_toNat {opcode : Nat} (h : opcode < 16) (a b c : Reg) :
    (threeRegWord opcode a b c).toNat = opcode * 2 ^ 28 + a.val * 2 ^ 6 + b.val * 2 ^ 3 + c.val := by
  simp only [threeRegWord, BitVec.toNat_ofNat]
  omega

/-- An immediate-format word as a number (R103). -/
theorem immediateWord_toNat (rl : Reg) {imm : Word} (h : imm ≤ 0x1FFFFFF#32) :
    (immediateWord rl imm).toNat = 13 * 2 ^ 28 + rl.val * 2 ^ 25 + imm.toNat := by
  have himm : imm.toNat ≤ 0x1FFFFFF := BitVec.le_def.1 h
  simp only [immediateWord, BitVec.toNat_ofNat]
  omega

/-- The fields of a three-register word. -/
theorem threeRegWord_fields {opcode : Nat} (h : opcode < 16) (a b c : Reg) :
    fieldOf (threeRegWord opcode a b c) 28 4 = opcode ∧ regField (threeRegWord opcode a b c) 6 = a ∧
      regField (threeRegWord opcode a b c) 3 = b ∧ regField (threeRegWord opcode a b c) 0 = c := by
  refine ⟨?_, Fin.ext ?_, Fin.ext ?_, Fin.ext ?_⟩ <;>
    simp only [regField_val, fieldOf, threeRegWord_toNat h] <;> omega

/-- The fields of an immediate-format word. -/
theorem immediateWord_fields (rl : Reg) {imm : Word} (h : imm ≤ 0x1FFFFFF#32) :
    fieldOf (immediateWord rl imm) 28 4 = 13 ∧ regField (immediateWord rl imm) 25 = rl ∧
      fieldOf (immediateWord rl imm) 0 25 = imm.toNat := by
  have himm : imm.toNat ≤ 0x1FFFFFF := BitVec.le_def.1 h
  refine ⟨?_, Fin.ext ?_, ?_⟩ <;> simp only [regField_val, fieldOf, immediateWord_toNat rl h] <;> omega

/-- The decoder, one opcode at a time (table R98). -/
theorem decode_cases (w : Word) :
    (fieldOf w 28 4 = 0 ∧ decode w = .ok (.cmov (regField w 6) (regField w 3) (regField w 0))) ∨
    (fieldOf w 28 4 = 1 ∧ decode w = .ok (.sload (regField w 6) (regField w 3) (regField w 0))) ∨
    (fieldOf w 28 4 = 2 ∧ decode w = .ok (.sstore (regField w 6) (regField w 3) (regField w 0))) ∨
    (fieldOf w 28 4 = 3 ∧ decode w = .ok (.add (regField w 6) (regField w 3) (regField w 0))) ∨
    (fieldOf w 28 4 = 4 ∧ decode w = .ok (.mul (regField w 6) (regField w 3) (regField w 0))) ∨
    (fieldOf w 28 4 = 5 ∧ decode w = .ok (.div (regField w 6) (regField w 3) (regField w 0))) ∨
    (fieldOf w 28 4 = 6 ∧ decode w = .ok (.nand (regField w 6) (regField w 3) (regField w 0))) ∨
    (fieldOf w 28 4 = 7 ∧ decode w = .ok .halt) ∨
    (fieldOf w 28 4 = 8 ∧ decode w = .ok (.map (regField w 3) (regField w 0))) ∨
    (fieldOf w 28 4 = 9 ∧ decode w = .ok (.unmap (regField w 0))) ∨
    (fieldOf w 28 4 = 10 ∧ decode w = .ok (.out (regField w 0))) ∨
    (fieldOf w 28 4 = 11 ∧ decode w = .ok (.inp (regField w 0))) ∨
    (fieldOf w 28 4 = 12 ∧ decode w = .ok (.loadp (regField w 3) (regField w 0))) ∨
    (fieldOf w 28 4 = 13 ∧ decode w = .ok (.loadv (regField w 25) (BitVec.ofNat 32 (fieldOf w 0 25)))) ∨
    (14 ≤ fieldOf w 28 4 ∧ decode w = .error (.invalidOpcode (fieldOf w 28 4))) := by
  have hlt : fieldOf w 28 4 < 16 := fieldOf_lt w 28 4
  unfold decode decodeFields
  generalize fieldOf w 28 4 = op at hlt ⊢
  interval_cases op <;> simp

end Sys2Proof
end

