-- ==== Sys2Proof/Laws/Device.lean ====
section
/-! SUPPORT. The laws of the I/O device: everything `InByte()` can answer, said once. -/

namespace Sys2Proof.Machine

/-- Everything `InByte()` can answer (46_io.md R189). -/
theorem InputStream.poll_spec (i : InputStream) :
    match i.poll with
    | .byte b => i.eofSeen = false ∧ i.bytes[i.pos]? = some b
    | .eof => i.eofSeen = true ∨ i.bytes[i.pos]? = none ∧ i.closed = true
    | .hold => i.eofSeen = false ∧ i.bytes[i.pos]? = none ∧ i.closed = false := by
  unfold InputStream.poll
  cases he : i.eofSeen with
  | true => simp
  | false =>
    cases hb : i.bytes[i.pos]? with
    | some b => simp
    | none => cases hc : i.closed <;> simp

theorem InputStream.poll_eofSeen {i : InputStream} (h : i.eofSeen = true) : i.poll = .eof := by
  simp [InputStream.poll, h]

theorem InputStream.poll_byte {i : InputStream} {b : Byte} (h : i.eofSeen = false) (hb : i.bytes[i.pos]? = some b) :
    i.poll = .byte b := by
  simp [InputStream.poll, h, hb]

theorem InputStream.poll_end {i : InputStream} (hb : i.bytes[i.pos]? = none) (hc : i.closed = true) :
    i.poll = .eof := by
  cases h : i.eofSeen <;> simp [InputStream.poll, h, hb, hc]

theorem InputStream.poll_hold {i : InputStream} (h : i.eofSeen = false) (hb : i.bytes[i.pos]? = none)
    (hc : i.closed = false) : i.poll = .hold := by
  simp [InputStream.poll, h, hb, hc]

@[simp] theorem InputStream.consume_bytes (i : InputStream) : i.consume.bytes = i.bytes := rfl
@[simp] theorem InputStream.consume_closed (i : InputStream) : i.consume.closed = i.closed := rfl
@[simp] theorem InputStream.consume_pos (i : InputStream) : i.consume.pos = i.pos + 1 := rfl
@[simp] theorem InputStream.consume_eofSeen (i : InputStream) : i.consume.eofSeen = i.eofSeen := rfl
@[simp] theorem InputStream.signalEof_bytes (i : InputStream) : i.signalEof.bytes = i.bytes := rfl
@[simp] theorem InputStream.signalEof_closed (i : InputStream) : i.signalEof.closed = i.closed := rfl
@[simp] theorem InputStream.signalEof_pos (i : InputStream) : i.signalEof.pos = i.pos := rfl
@[simp] theorem InputStream.signalEof_eofSeen (i : InputStream) : i.signalEof.eofSeen = true := rfl

end Sys2Proof.Machine
end

