-- ==== Sys2Proof/Laws/State.lean ====
section
/-! SUPPORT. The record laws of State: one lemma per field per update, and the register file's read-after-write laws. -/

namespace Sys2Proof.Machine

/-! ## The register file (10_state.md R21) -/

@[simp] theorem RegFile.get_set_self (f : RegFile) (r : Reg) (v : Word) : (f.set r v).get r = v := by
  fin_cases r <;> rfl

theorem RegFile.get_set_ne (f : RegFile) {r q : Reg} (v : Word) (h : q ≠ r) : (f.set r v).get q = f.get q := by
  fin_cases r <;> fin_cases q <;> first | rfl | exact absurd rfl h

/-- Two register files that agree on every register are equal. -/
theorem RegFile.ext_get {f g : RegFile} (h : ∀ r, f.get r = g.get r) : f = g := by
  have h0 := h 0; have h1 := h 1; have h2 := h 2; have h3 := h 3
  have h4 := h 4; have h5 := h 5; have h6 := h 6; have h7 := h 7
  cases f; cases g
  simp only [RegFile.get] at h0 h1 h2 h3 h4 h5 h6 h7
  simp only [RegFile.mk.injEq]
  exact ⟨h0, h1, h2, h3, h4, h5, h6, h7⟩

@[simp] theorem State.setX_x_self (s : State) (r : Reg) (v : Word) : (s.setX r v).x r = v :=
  RegFile.get_set_self _ _ _

theorem State.setX_x_ne (s : State) {r q : Reg} (v : Word) (h : q ≠ r) : (s.setX r v).x q = s.x q :=
  RegFile.get_set_ne _ _ h

/-! ## setX -/

@[simp] theorem State.setX_regs (s : State) (r : Reg) (v : Word) : (s.setX r v).regs = s.regs.set r v := rfl
@[simp] theorem State.setX_pc (s : State) (r : Reg) (v : Word) : (s.setX r v).pc = s.pc := rfl
@[simp] theorem State.setX_run (s : State) (r : Reg) (v : Word) : (s.setX r v).run = s.run := rfl
@[simp] theorem State.setX_mem (s : State) (r : Reg) (v : Word) : (s.setX r v).mem = s.mem := rfl
@[simp] theorem State.setX_allocator (s : State) (r : Reg) (v : Word) : (s.setX r v).allocator = s.allocator := rfl
@[simp] theorem State.setX_input (s : State) (r : Reg) (v : Word) : (s.setX r v).input = s.input := rfl
@[simp] theorem State.setX_output (s : State) (r : Reg) (v : Word) : (s.setX r v).output = s.output := rfl
@[simp] theorem State.setX_cfg (s : State) (r : Reg) (v : Word) : (s.setX r v).cfg = s.cfg := rfl
@[simp] theorem State.setX_draws (s : State) (r : Reg) (v : Word) : (s.setX r v).draws = s.draws := rfl

/-! ## raise -/

@[simp] theorem State.raise_regs (s : State) (k : FaultKind) : (s.raise k).regs = s.regs := rfl
@[simp] theorem State.raise_pc (s : State) (k : FaultKind) : (s.raise k).pc = s.pc := rfl
@[simp] theorem State.raise_run (s : State) (k : FaultKind) : (s.raise k).run = .faulted k := rfl
@[simp] theorem State.raise_mem (s : State) (k : FaultKind) : (s.raise k).mem = s.mem := rfl
@[simp] theorem State.raise_allocator (s : State) (k : FaultKind) : (s.raise k).allocator = s.allocator := rfl
@[simp] theorem State.raise_input (s : State) (k : FaultKind) : (s.raise k).input = s.input := rfl
@[simp] theorem State.raise_output (s : State) (k : FaultKind) : (s.raise k).output = s.output := rfl
@[simp] theorem State.raise_cfg (s : State) (k : FaultKind) : (s.raise k).cfg = s.cfg := rfl
@[simp] theorem State.raise_draws (s : State) (k : FaultKind) : (s.raise k).draws = s.draws := rfl
@[simp] theorem State.raise_x (s : State) (k : FaultKind) (q : Reg) : (s.raise k).x q = s.x q := rfl

/-! ## halt -/

@[simp] theorem State.halt_regs (s : State) : (s.halt).regs = s.regs := rfl
@[simp] theorem State.halt_pc (s : State) : (s.halt).pc = s.pc := rfl
@[simp] theorem State.halt_run (s : State) : (s.halt).run = .halted := rfl
@[simp] theorem State.halt_mem (s : State) : (s.halt).mem = s.mem := rfl
@[simp] theorem State.halt_allocator (s : State) : (s.halt).allocator = s.allocator := rfl
@[simp] theorem State.halt_input (s : State) : (s.halt).input = s.input := rfl
@[simp] theorem State.halt_output (s : State) : (s.halt).output = s.output := rfl
@[simp] theorem State.halt_cfg (s : State) : (s.halt).cfg = s.cfg := rfl
@[simp] theorem State.halt_draws (s : State) : (s.halt).draws = s.draws := rfl
@[simp] theorem State.halt_x (s : State) (q : Reg) : (s.halt).x q = s.x q := rfl

/-! ## advance -/

@[simp] theorem State.advance_regs (s : State) : (s.advance).regs = s.regs := rfl
@[simp] theorem State.advance_pc (s : State) : (s.advance).pc = s.pc + 1#32 := rfl
@[simp] theorem State.advance_run (s : State) : (s.advance).run = s.run := rfl
@[simp] theorem State.advance_mem (s : State) : (s.advance).mem = s.mem := rfl
@[simp] theorem State.advance_allocator (s : State) : (s.advance).allocator = s.allocator := rfl
@[simp] theorem State.advance_input (s : State) : (s.advance).input = s.input := rfl
@[simp] theorem State.advance_output (s : State) : (s.advance).output = s.output := rfl
@[simp] theorem State.advance_cfg (s : State) : (s.advance).cfg = s.cfg := rfl
@[simp] theorem State.advance_draws (s : State) : (s.advance).draws = s.draws := rfl
@[simp] theorem State.advance_x (s : State) (q : Reg) : (s.advance).x q = s.x q := rfl

/-! ## jump -/

@[simp] theorem State.jump_regs (s : State) (t : Word) : (s.jump t).regs = s.regs := rfl
@[simp] theorem State.jump_pc (s : State) (t : Word) : (s.jump t).pc = t := rfl
@[simp] theorem State.jump_run (s : State) (t : Word) : (s.jump t).run = s.run := rfl
@[simp] theorem State.jump_mem (s : State) (t : Word) : (s.jump t).mem = s.mem := rfl
@[simp] theorem State.jump_allocator (s : State) (t : Word) : (s.jump t).allocator = s.allocator := rfl
@[simp] theorem State.jump_input (s : State) (t : Word) : (s.jump t).input = s.input := rfl
@[simp] theorem State.jump_output (s : State) (t : Word) : (s.jump t).output = s.output := rfl
@[simp] theorem State.jump_cfg (s : State) (t : Word) : (s.jump t).cfg = s.cfg := rfl
@[simp] theorem State.jump_draws (s : State) (t : Word) : (s.jump t).draws = s.draws := rfl
@[simp] theorem State.jump_x (s : State) (t : Word) (q : Reg) : (s.jump t).x q = s.x q := rfl

/-! ## withMem -/

@[simp] theorem State.withMem_regs (s : State) (m : Memory) : (s.withMem m).regs = s.regs := rfl
@[simp] theorem State.withMem_pc (s : State) (m : Memory) : (s.withMem m).pc = s.pc := rfl
@[simp] theorem State.withMem_run (s : State) (m : Memory) : (s.withMem m).run = s.run := rfl
@[simp] theorem State.withMem_mem (s : State) (m : Memory) : (s.withMem m).mem = m := rfl
@[simp] theorem State.withMem_allocator (s : State) (m : Memory) : (s.withMem m).allocator = s.allocator := rfl
@[simp] theorem State.withMem_input (s : State) (m : Memory) : (s.withMem m).input = s.input := rfl
@[simp] theorem State.withMem_output (s : State) (m : Memory) : (s.withMem m).output = s.output := rfl
@[simp] theorem State.withMem_cfg (s : State) (m : Memory) : (s.withMem m).cfg = s.cfg := rfl
@[simp] theorem State.withMem_draws (s : State) (m : Memory) : (s.withMem m).draws = s.draws := rfl
@[simp] theorem State.withMem_x (s : State) (m : Memory) (q : Reg) : (s.withMem m).x q = s.x q := rfl

/-! ## withInput -/

@[simp] theorem State.withInput_regs (s : State) (i : InputStream) : (s.withInput i).regs = s.regs := rfl
@[simp] theorem State.withInput_pc (s : State) (i : InputStream) : (s.withInput i).pc = s.pc := rfl
@[simp] theorem State.withInput_run (s : State) (i : InputStream) : (s.withInput i).run = s.run := rfl
@[simp] theorem State.withInput_mem (s : State) (i : InputStream) : (s.withInput i).mem = s.mem := rfl
@[simp] theorem State.withInput_allocator (s : State) (i : InputStream) : (s.withInput i).allocator = s.allocator := rfl
@[simp] theorem State.withInput_input (s : State) (i : InputStream) : (s.withInput i).input = i := rfl
@[simp] theorem State.withInput_output (s : State) (i : InputStream) : (s.withInput i).output = s.output := rfl
@[simp] theorem State.withInput_cfg (s : State) (i : InputStream) : (s.withInput i).cfg = s.cfg := rfl
@[simp] theorem State.withInput_draws (s : State) (i : InputStream) : (s.withInput i).draws = s.draws := rfl
@[simp] theorem State.withInput_x (s : State) (i : InputStream) (q : Reg) : (s.withInput i).x q = s.x q := rfl

/-! ## outByte -/

@[simp] theorem State.outByte_regs (s : State) (b : Byte) : (s.outByte b).regs = s.regs := rfl
@[simp] theorem State.outByte_pc (s : State) (b : Byte) : (s.outByte b).pc = s.pc := rfl
@[simp] theorem State.outByte_run (s : State) (b : Byte) : (s.outByte b).run = s.run := rfl
@[simp] theorem State.outByte_mem (s : State) (b : Byte) : (s.outByte b).mem = s.mem := rfl
@[simp] theorem State.outByte_allocator (s : State) (b : Byte) : (s.outByte b).allocator = s.allocator := rfl
@[simp] theorem State.outByte_input (s : State) (b : Byte) : (s.outByte b).input = s.input := rfl
@[simp] theorem State.outByte_output (s : State) (b : Byte) : (s.outByte b).output = s.output ++ [b] := rfl
@[simp] theorem State.outByte_cfg (s : State) (b : Byte) : (s.outByte b).cfg = s.cfg := rfl
@[simp] theorem State.outByte_draws (s : State) (b : Byte) : (s.outByte b).draws = s.draws := rfl
@[simp] theorem State.outByte_x (s : State) (b : Byte) (q : Reg) : (s.outByte b).x q = s.x q := rfl

end Sys2Proof.Machine
end

