-- ==== Sys2Proof/Laws/Exec.lean ====
section
/-! SUPPORT. Everything one instruction can do to the state, said once (`Effect`), and the lemma that `exec` does nothing
else. The statements about all instructions are read off it without unfolding a meaning. -/

namespace Sys2Proof.Machine

/-- The end of an instruction whose operation may fault, inverted. -/
theorem State.complete_eq_next {s t : State} {r : Except FaultKind State} (h : s.complete r = .next t) :
    (∃ k, r = .error k ∧ t = s.raise k) ∨ (∃ u, r = .ok u ∧ t = u.advance) := by
  cases r with
  | error k => cases h; exact .inl ⟨k, rfl, rfl⟩
  | ok u => cases h; exact .inr ⟨u, rfl, rfl⟩

/-- The ways an instruction can end: `Effect s i t` says that `i` took `s` to `t` in one of them. -/
inductive Effect (s : State) : Instr → State → Prop
  | cmovTaken (a b c : Reg) (h : s.x c ≠ 0#32) : Effect s (.cmov a b c) (s.setX a (s.x b)).advance
  | cmovSkipped (a b c : Reg) (h : s.x c = 0#32) : Effect s (.cmov a b c) s.advance
  | sload (a b c : Reg) (v : Word) (h : s.mem.read (s.x b) (s.x c) = .ok v) :
      Effect s (.sload a b c) (s.setX a v).advance
  | sloadFault (a b c : Reg) (k : FaultKind) (h : s.mem.read (s.x b) (s.x c) = .error k) :
      Effect s (.sload a b c) (s.raise k)
  | sstore (a b c : Reg) (m : Memory) (h : s.mem.write (s.x a) (s.x b) (s.x c) = .ok m) :
      Effect s (.sstore a b c) (s.withMem m).advance
  | sstoreFault (a b c : Reg) (k : FaultKind) (h : s.mem.write (s.x a) (s.x b) (s.x c) = .error k) :
      Effect s (.sstore a b c) (s.raise k)
  | add (a b c : Reg) : Effect s (.add a b c) (s.setX a (aluAdd (s.x b) (s.x c))).advance
  | mul (a b c : Reg) : Effect s (.mul a b c) (s.setX a (aluMul (s.x b) (s.x c))).advance
  | div (a b c : Reg) (h : s.x c ≠ 0#32) : Effect s (.div a b c) (s.setX a (aluDiv (s.x b) (s.x c))).advance
  | divFault (a b c : Reg) (h : s.x c = 0#32) : Effect s (.div a b c) (s.raise .divisionByZero)
  | nand (a b c : Reg) : Effect s (.nand a b c) (s.setX a (aluNand (s.x b) (s.x c))).advance
  | halt : Effect s .halt s.halt
  | map (b c : Reg) (id : Word) (u : State) (h : s.alloc (s.x c) = .ok (id, u)) :
      Effect s (.map b c) (u.setX b id).advance
  | mapFault (b c : Reg) (k : FaultKind) (h : s.alloc (s.x c) = .error k) : Effect s (.map b c) (s.raise k)
  | unmap (c : Reg) (u : State) (h : s.free (s.x c) = .ok u) : Effect s (.unmap c) u.advance
  | unmapFault (c : Reg) (k : FaultKind) (h : s.free (s.x c) = .error k) : Effect s (.unmap c) (s.raise k)
  | out (c : Reg) (h : ¬ 255#32 < s.x c) : Effect s (.out c) (s.outByte (lowByte (s.x c))).advance
  | outFault (c : Reg) (h : 255#32 < s.x c) : Effect s (.out c) (s.raise .outputOverflow)
  | inByte (c : Reg) (b : Byte) (h : s.input.poll = .byte b) :
      Effect s (.inp c) ((s.setX c (zextByte b)).withInput s.input.consume).advance
  | inEof (c : Reg) (h : s.input.poll = .eof) (hp : s.cfg.eofPolicy = .allOnes) :
      Effect s (.inp c) ((s.setX c 0xFFFFFFFF#32).withInput s.input.signalEof).advance
  | inFault (c : Reg) (h : s.input.poll = .eof) (hp : s.cfg.eofPolicy = .fault) :
      Effect s (.inp c) (s.raise .inputExhausted)
  | inHold (c : Reg) (h : s.input.poll = .hold) : Effect s (.inp c) s
  | loadp (b c : Reg) (m : Memory) (h : s.mem.loadProgram (s.x b) = .ok m) :
      Effect s (.loadp b c) ((s.withMem m).jump (s.x c))
  | loadpFault (b c : Reg) (k : FaultKind) (h : s.mem.loadProgram (s.x b) = .error k) :
      Effect s (.loadp b c) (s.raise k)
  | loadv (rl : Reg) (imm : Word) : Effect s (.loadv rl imm) (s.setX rl (zextImmediate imm)).advance

/-- Every instruction answers a next state, and it is one of `Effect`'s. -/
theorem exec_effect (i : Instr) (s : State) : ∃ t, exec i s = .next t ∧ Effect s i t := by
  cases i with
  | cmov a b c =>
    by_cases h : s.x c = 0#32
    · exact ⟨_, by simp [exec, execCmov, State.cNz, h], .cmovSkipped a b c h⟩
    · exact ⟨_, by simp [exec, execCmov, State.cNz, h], .cmovTaken a b c h⟩
  | sload a b c =>
    cases h : s.mem.read (s.x b) (s.x c) with
    | error k => exact ⟨_, by simp [exec, execSload, State.loadAddress, h, Except.map, State.complete],
        .sloadFault a b c k h⟩
    | ok v => exact ⟨_, by simp [exec, execSload, State.loadAddress, h, Except.map, State.complete], .sload a b c v h⟩
  | sstore a b c =>
    cases h : s.mem.write (s.x a) (s.x b) (s.x c) with
    | error k => exact ⟨_, by simp [exec, execSstore, State.storeAddress, h, Except.map, State.complete],
        .sstoreFault a b c k h⟩
    | ok m => exact ⟨_, by simp [exec, execSstore, State.storeAddress, h, Except.map, State.complete],
        .sstore a b c m h⟩
  | add a b c => exact ⟨_, rfl, .add a b c⟩
  | mul a b c => exact ⟨_, rfl, .mul a b c⟩
  | div a b c =>
    by_cases h : s.x c = 0#32
    · exact ⟨_, by simp [exec, execDiv, State.cNz, h, State.complete], .divFault a b c h⟩
    · exact ⟨_, by simp [exec, execDiv, State.cNz, h, State.complete], .div a b c h⟩
  | nand a b c => exact ⟨_, rfl, .nand a b c⟩
  | halt => exact ⟨_, rfl, .halt⟩
  | map b c =>
    cases h : s.alloc (s.x c) with
    | error k => exact ⟨_, by simp [exec, execMap, h, Except.map, State.complete], .mapFault b c k h⟩
    | ok r => exact ⟨_, by simp [exec, execMap, h, Except.map, State.complete], .map b c r.1 r.2 h⟩
  | unmap c =>
    cases h : s.free (s.x c) with
    | error k => exact ⟨_, by simp [exec, execUnmap, h, State.complete], .unmapFault c k h⟩
    | ok u => exact ⟨_, by simp [exec, execUnmap, h, State.complete], .unmap c u h⟩
  | out c =>
    by_cases h : 255#32 < s.x c
    · exact ⟨_, by simp [exec, execOut, State.cGt255, h, State.complete], .outFault c h⟩
    · exact ⟨_, by simp [exec, execOut, State.cGt255, h, State.complete], .out c h⟩
  | inp c =>
    cases h : s.input.poll with
    | byte b => exact ⟨_, by simp [exec, execIn, h], .inByte c b h⟩
    | eof =>
      cases hp : s.cfg.eofPolicy with
      | allOnes => exact ⟨_, by simp [exec, execIn, h, hp], .inEof c h hp⟩
      | fault => exact ⟨_, by simp [exec, execIn, h, hp], .inFault c h hp⟩
    | hold => exact ⟨_, by simp [exec, execIn, h], .inHold c h⟩
  | loadp b c =>
    cases h : s.mem.loadProgram (s.x b) with
    | error k => exact ⟨_, by simp [exec, execLoadp, h], .loadpFault b c k h⟩
    | ok m => exact ⟨_, by simp [exec, execLoadp, h], .loadp b c m h⟩
  | loadv rl imm => exact ⟨_, rfl, .loadv rl imm⟩

/-- The inversion lemma of `exec`. -/
theorem effect_of_exec {i : Instr} {s t : State} (h : exec i s = .next t) : Effect s i t := by
  obtain ⟨u, hu, he⟩ := exec_effect i s
  cases hu.symm.trans h
  exact he

/-- An effect is what `exec` answers. -/
theorem exec_of_effect {i : Instr} {s t : State} (h : Effect s i t) : exec i s = .next t := by
  cases h
  case out c h => simp [exec, execOut, State.cGt255, h, State.complete]
  all_goals
    simp_all [exec, execCmov, execSload, execSstore, execAdd, execMul, execDiv, execNand, execHalt, execMap, execUnmap,
      execOut, execIn, execLoadp, execLoadv, State.cNz, State.cGt255, State.loadAddress, State.storeAddress, Except.map,
      State.complete]

end Sys2Proof.Machine
end

