-- ==== Sys2Proof/Laws/PerInstr.lean ====
section
/-! SUPPORT. Facts about every instruction as syntax, one lemma per constructor. Family `OpcodeField`: the opcode field of
an instruction's canonical word is its opcode value (30_encoding.md R98, R103). -/

namespace Sys2Proof.Laws.OpcodeField

/-- Bits 31:28 of the canonical word of a well-formed instruction hold its opcode value. -/
def Statement (i : Instr) : Prop := i.WellFormed → fieldOf (encode i) 28 4 = i.opcode

theorem cmov (a b c : Reg) : Statement (.cmov a b c) := fun _ => (threeRegWord_fields (by decide) a b c).1
theorem sload (a b c : Reg) : Statement (.sload a b c) := fun _ => (threeRegWord_fields (by decide) a b c).1
theorem sstore (a b c : Reg) : Statement (.sstore a b c) := fun _ => (threeRegWord_fields (by decide) a b c).1
theorem add (a b c : Reg) : Statement (.add a b c) := fun _ => (threeRegWord_fields (by decide) a b c).1
theorem mul (a b c : Reg) : Statement (.mul a b c) := fun _ => (threeRegWord_fields (by decide) a b c).1
theorem div (a b c : Reg) : Statement (.div a b c) := fun _ => (threeRegWord_fields (by decide) a b c).1
theorem nand (a b c : Reg) : Statement (.nand a b c) := fun _ => (threeRegWord_fields (by decide) a b c).1
theorem halt : Statement .halt := fun _ => (threeRegWord_fields (by decide) 0 0 0).1
theorem map (b c : Reg) : Statement (.map b c) := fun _ => (threeRegWord_fields (by decide) 0 b c).1
theorem unmap (c : Reg) : Statement (.unmap c) := fun _ => (threeRegWord_fields (by decide) 0 0 c).1
theorem out (c : Reg) : Statement (.out c) := fun _ => (threeRegWord_fields (by decide) 0 0 c).1
theorem inp (c : Reg) : Statement (.inp c) := fun _ => (threeRegWord_fields (by decide) 0 0 c).1
theorem loadp (b c : Reg) : Statement (.loadp b c) := fun _ => (threeRegWord_fields (by decide) 0 b c).1
theorem loadv (rl : Reg) (imm : Word) : Statement (.loadv rl imm) := fun h =>
  (immediateWord_fields rl (of_decide_eq_true h)).1

end Sys2Proof.Laws.OpcodeField
end

