-- ==== Sys2Proof/Laws/Run.lean ====
section
/-! SUPPORT. A run, one step at a time. -/

namespace Sys2Proof.Machine

@[simp] theorem State.after_zero (s t : State) : State.After 0 s t ↔ t = s := by
  unfold State.After
  constructor
  · intro h; cases h; rfl
  · rintro rfl; rfl

theorem core_run_succ (M : Host.Core) (n : Nat) (s : M.State) :
    M.run (n + 1) s =
      match M.step s with
      | .next u => M.run n u
      | .fault r => .fault r
      | .refused r => .refused r := rfl

/-- A run of `n + 1` steps is a step and a run of `n`. -/
theorem State.after_succ (n : Nat) (s t : State) :
    State.After (n + 1) s t ↔ ∃ u, step s = .next u ∧ State.After n u t := by
  have hrun := core_run_succ Sys2Proof.core n s
  have hstep : Sys2Proof.core.step s = step s := rfl
  unfold State.After
  rw [hrun, hstep]
  cases h : step s with
  | next u => simp only [Host.Outcome.next.injEq, exists_eq_left']
  | fault r => simp
  | refused r => simp

end Sys2Proof.Machine
end

