-- ==== Sys2Proof/Laws/Step.lean ====
section
/-! SUPPORT. Everything one step can do, said once: no step in a terminal state, and in a running state one of the four
ways of 40_execution_cycle.md R120. -/

namespace Sys2Proof.Machine

/-- The inversion lemma of `step`: a step is taken from a running state only; it is the implicit halt, the fetch fault, the
opcode fault, or the fetched word's instruction. -/
theorem step_eq_next {s t : State} (h : step s = .next t) :
    s.run = .running ∧
      ((s.pc = s.mem.progLen ∧ t = s.halt) ∨
       (s.mem.progLen < s.pc ∧ t = s.raise .outOfBoundsOffset) ∨
       (s.pc < s.mem.progLen ∧ (∃ r, decode s.fetchWord = .error r) ∧ t = s.raise .invalidOpcode) ∨
       (s.pc < s.mem.progLen ∧ ∃ i, decode s.fetchWord = .ok i ∧ exec i s = .next t)) := by
  unfold step at h
  cases hr : s.run with
  | halted => simp [hr] at h
  | faulted k => simp [hr] at h
  | running =>
    refine ⟨rfl, ?_⟩
    simp only [hr] at h
    by_cases heq : s.pc = s.mem.progLen
    · simp only [State.fetch, heq, if_true] at h
      cases h
      exact .inl ⟨heq, rfl⟩
    by_cases hgt : s.mem.progLen < s.pc
    · simp only [State.fetch, heq, hgt, if_true, if_false] at h
      cases h
      exact .inr (.inl ⟨hgt, rfl⟩)
    have hlt : s.pc < s.mem.progLen := by
      have hne : s.pc.toNat ≠ s.mem.progLen.toNat := fun e => heq (BitVec.eq_of_toNat_eq e)
      rw [BitVec.lt_def] at hgt ⊢
      omega
    refine .inr (.inr ?_)
    simp only [State.fetch, heq, hgt, if_false] at h
    cases hd : decode s.fetchWord with
    | error r =>
      simp only [hd] at h
      cases h
      exact .inl ⟨hlt, ⟨r, rfl⟩, rfl⟩
    | ok i =>
      simp only [hd] at h
      exact .inr ⟨hlt, i, rfl, h⟩

/-- The fetch of a word below the program's length is the memory's read of it (R122). -/
theorem State.read_pc {s : State} (h : s.pc < s.mem.progLen) : s.mem.read 0#32 s.pc = .ok s.fetchWord := by
  unfold Memory.progLen at h
  simp [Memory.read, State.fetchWord, h]

/-- A pc below the program's length passes both tests of R121. -/
theorem fetch_tests {s : State} (h : s.pc < s.mem.progLen) : s.pc ≠ s.mem.progLen ∧ ¬ s.mem.progLen < s.pc := by
  rw [BitVec.lt_def] at h ⊢
  exact ⟨fun e => by rw [e] at h; exact Nat.lt_irrefl _ h, by omega⟩

/-- The implicit halt (R121). -/
theorem step_endOfProgram {s : State} (hr : s.run = .running) (h : s.pc = s.mem.progLen) :
    step s = .next s.halt := by
  unfold step
  simp only [hr, State.fetch, h, if_true]

/-- The fetch fault (R121). -/
theorem step_fetchFault {s : State} (hr : s.run = .running) (h : s.mem.progLen < s.pc) :
    step s = .next (s.raise .outOfBoundsOffset) := by
  have hne : s.pc ≠ s.mem.progLen := fun e => by
    rw [e, BitVec.lt_def] at h
    exact Nat.lt_irrefl _ h
  unfold step
  simp only [hr, State.fetch, hne, h, if_true, if_false]

/-- The opcode fault (R124). -/
theorem step_illegal {s : State} {r : Reject} (hr : s.run = .running) (h : s.pc < s.mem.progLen)
    (hd : decode s.fetchWord = .error r) : step s = .next (s.raise .invalidOpcode) := by
  obtain ⟨h1, h2⟩ := fetch_tests h
  unfold step
  simp only [hr, State.fetch, h1, h2, hd, if_false]

/-- The fetched word's instruction (R124). -/
theorem step_instr {s : State} {i : Instr} (hr : s.run = .running) (h : s.pc < s.mem.progLen)
    (hd : decode s.fetchWord = .ok i) : step s = exec i s := by
  obtain ⟨h1, h2⟩ := fetch_tests h
  unfold step
  simp only [hr, State.fetch, h1, h2, hd, if_false]

/-- Placing a word keeps a segment canonical: the only operation that lengthens one (log 13). -/
theorem Segment.place_wf {g : Segment} {off : Word} (w : Word) (h : g.wf) (hoff : off ≠ 0xFFFFFFFF#32) :
    (g.place off w).wf := by
  unfold Segment.place
  by_cases hlt : off < g.len
  · rw [if_pos hlt]
    exact Segment.setWord_wf w h hlt
  · rw [if_neg hlt]
    have hne : off.toNat ≠ 0xFFFFFFFF := fun e => hoff (BitVec.eq_of_toNat_eq e)
    have hlen : (off + 1#32).toNat = off.toNat + 1 := by
      have := off.isLt
      rw [BitVec.toNat_add, show (1#32).toNat = 1 from rfl]
      exact Nat.mod_eq_of_lt (by omega)
    have hold : g.len.toNat ≤ off.toNat := by
      rw [BitVec.lt_def] at hlt
      omega
    refine Segment.setWord_wf w ⟨h.1, fun c hc => ⟨?_, (h.2 c hc).2⟩⟩ ?_
    · have := (h.2 c hc).1
      show c.1 < (off + 1#32).toNat
      omega
    · show off < off + 1#32
      rw [BitVec.lt_def, hlen]
      exact Nat.lt_succ_self _

end Sys2Proof.Machine
end

