-- ==== Sys2Proof/Machine/Assembly.lean ====
section
/-! DEFINITION. The assembler text of an instruction (30_encoding.md R102, table R98). -/

namespace Sys2Proof

/-- The mnemonic of table R98. -/
def Instr.mnemonic : Instr → String
  | .cmov _ _ _ => "CMOV"
  | .sload _ _ _ => "SLOAD"
  | .sstore _ _ _ => "SSTORE"
  | .add _ _ _ => "ADD"
  | .mul _ _ _ => "MUL"
  | .div _ _ _ => "DIV"
  | .nand _ _ _ => "NAND"
  | .halt => "HALT"
  | .map _ _ => "MAP"
  | .unmap _ => "UNMAP"
  | .out _ => "OUT"
  | .inp _ => "IN"
  | .loadp _ _ => "LOADP"
  | .loadv _ _ => "LOADV"

/-- A register operand, `r0` .. `r7`. -/
def Instr.regName (r : Reg) : String := "r" ++ Nat.repr r.val

/-- The operands in field order, those an instruction does not use left out; the immediate in decimal. -/
def Instr.operandTexts : Instr → List String
  | .cmov a b c | .sload a b c | .sstore a b c | .add a b c | .mul a b c | .div a b c | .nand a b c =>
    [regName a, regName b, regName c]
  | .halt => []
  | .map b c | .loadp b c => [regName b, regName c]
  | .unmap c | .out c | .inp c => [regName c]
  | .loadv rl imm => [regName rl, Nat.repr imm.toNat]

/-- One line of assembly (R102). -/
def Instr.assembly (i : Instr) : String :=
  match i.operandTexts with
  | [] => i.mnemonic
  | ops => i.mnemonic ++ " " ++ String.intercalate ", " ops

end Sys2Proof
end

