-- ==== Sys2Proof/Tests/Slice0.lean ====
section
/-! SUPPORT. Tests, the vectors of spec/95_test_vectors.md (named in each comment) or words written out from the tables of
spec/30_encoding.md; then, for every statement with hypotheses, a state that meets them, clause by clause. -/

namespace Sys2Proof.Tests

open Sys2Proof Sys2Proof.Machine

/-! ## Helpers -/

/-- The configuration of the vectors: `lifo`, `all_ones`, the default `ID_SPACE`. -/
def lifoCfg : Config := ⟨.lifo, .allOnes, Config.fullIdSpace⟩

/-- The reset state with a program, registers set, and segment 1 = [0, 100], as section 2.3 of the vectors has it. -/
def machine (program : List Word) (xs : List (Reg × Word)) : State :=
  { State.reset with
    regs := xs.foldl (fun f p => f.set p.1 p.2) State.reset.regs
    cfg := lifoCfg
    mem := ⟨Segment.ofWords program, [(1, Segment.ofWords [0, 100])]⟩
    allocator := ⟨[], [1]⟩ }

/-- The next state of an outcome. -/
def next? : Result → Option State
  | .next t => some t
  | .fault _ => none
  | .refused _ => none

/-- One step, seen through `f`. -/
def after {α : Type} (s : State) (f : State → α) : Option α := (next? (step s)).map f

/-! ## Well-formedness -/

theorem test_loadv_26_bit_immediate_is_ill_formed : Instr.wellFormed (.loadv 0 0x2000000) = false := by decide
theorem test_loadv_25_bit_immediate_is_well_formed : Instr.wellFormed (.loadv 7 0x1FFFFFF) = true := by decide

/-! ## Decoding: words written out from tables R90, R91, R98, unused bits set in some -/

theorem test_decode_cmov : decodeTableWord 32 0b00001111111111111111111101110001 = some (.cmov 5 6 1) := by decide
theorem test_decode_sload : decodeTableWord 32 0b00010000000000000000000101010100 = some (.sload 5 2 4) := by decide
theorem test_decode_sstore : decodeTableWord 32 0b00100000000000000000000010100011 = some (.sstore 2 4 3) := by decide
theorem test_decode_add : decodeTableWord 32 0b00111111111111111111111001010011 = some (.add 1 2 3) := by decide
theorem test_decode_mul : decodeTableWord 32 0b01000000000000000000000011001010 = some (.mul 3 1 2) := by decide
theorem test_decode_div : decodeTableWord 32 0b01010000000000000000000101101111 = some (.div 5 5 7) := by decide
theorem test_decode_nand : decodeTableWord 32 0b01100000000000000000000010001001 = some (.nand 2 1 1) := by decide
theorem test_decode_halt : decodeTableWord 32 0b01111111111111111111111111111111 = some .halt := by decide
theorem test_decode_map : decodeTableWord 32 0b10000000000000000000000111010001 = some (.map 2 1) := by decide
theorem test_decode_unmap : decodeTableWord 32 0b10010000000000000000000111111010 = some (.unmap 2) := by decide
theorem test_decode_out : decodeTableWord 32 0b10100000000000000000000000000001 = some (.out 1) := by decide
theorem test_decode_in : decodeTableWord 32 0b10110000000000000000000000000001 = some (.inp 1) := by decide
theorem test_decode_loadp : decodeTableWord 32 0b11001010101111001101111011110111 = some (.loadp 6 7) := by decide
theorem test_decode_loadv : decodeTableWord 32 0b11010000000000000000000001000001 = some (.loadv 0 65) := by decide
theorem test_decode_opcode_14 : decodeTableWord 32 0b11100000000000000000000000000000 = none := by decide
theorem test_decode_opcode_15 : decodeTableWord 32 0b11111111111111111111111111111111 = none := by decide

/-- V-DEC-9, all six fields. -/
theorem test_fields_of_loadp_word : decodeFields 0xCABCDEF7 = ⟨12, 3, 6, 7, 5, 0x0BCDEF7⟩ := by decide

/-- R70: `LOADV r0, 65` in file order, the most significant byte first. -/
theorem test_decode_bytes_big_endian :
    decodeBytes [0xD0, 0x00, 0x00, 0x41, 0xA0] = .ok (.loadv 0 65, [0xA0]) := by rfl

/-- R102, the assembly of program P4. -/
theorem test_assembly : (Instr.cmov 5 6 1).assembly = "CMOV r5, r6, r1" ∧ Instr.halt.assembly = "HALT" ∧
    (Instr.loadv 1 3).assembly = "LOADV r1, 3" := by decide

/-! ## One step -/

/-- V-CMOV-3: the condition is read before the write, bit 31 alone is not zero. -/
theorem test_cmov_destination_is_condition :
    after (machine [0x00000051] [(1, 0x80000000), (2, 7)]) (fun t => (t.x 1, t.pc)) = some (7, 1) := by decide
/-- V-CMOV-2. -/
theorem test_cmov_zero_keeps_destination :
    after (machine [0x00000171] [(1, 0), (6, 3), (5, 10)]) (fun t => (t.x 5, t.pc)) = some (10, 1) := by decide

/-- V-SLOAD-6: one register is destination, identifier and offset. -/
theorem test_sload_same_register :
    after (machine [0x100000DB] [(3, 1)]) (fun t => (t.x 3, t.pc)) = some (100, 1) := by decide
/-- V-SLOAD-2: the offset equals the length. -/
theorem test_sload_offset_at_length :
    after (machine [0x10000154] [(2, 1), (4, 2)]) (fun t => (t.x 5, t.pc, t.run)) =
      some (0, 0, .faulted .outOfBoundsOffset) := by decide

/-- V-SSTORE-4: one register is identifier, offset and datum. -/
theorem test_sstore_same_register :
    after (machine [0x20000049] [(1, 1)]) (fun t => (t.mem.segs, t.pc)) = some ([(1, Segment.ofWords [0, 1])], 1) := by
  decide
/-- V-SSTORE-3. -/
theorem test_sstore_unmapped :
    after (machine [0x200000A3] [(2, 5), (3, 7)]) (fun t => (t.mem.segs, t.run)) =
      some ([(1, Segment.ofWords [0, 100])], .faulted .unmappedSegmentAccess) := by decide

/-- V-ADD-3. -/
theorem test_add_wraps :
    after (machine [0x300000CA] [(1, 0xFFFFFFFF), (2, 0xFFFFFFFF)]) (fun t => (t.x 3, t.pc)) =
      some (0xFFFFFFFE, 1) := by decide
/-- `ADD r1, r1, r1` of section 2.4. -/
theorem test_add_same_register :
    after (machine [0x30000049] [(1, 0xC0000001)]) (fun t => t.x 1) = some 0x80000002 := by decide

/-- V-MUL-4. -/
theorem test_mul_low_word :
    after (machine [0x400000CA] [(1, 0x12345678), (2, 0x9ABCDEF0)]) (fun t => (t.x 3, t.pc)) =
      some (0x242D2080, 1) := by decide

/-- V-DIV-3: unsigned. -/
theorem test_div_unsigned :
    after (machine [0x500000CA] [(1, 0x80000000), (2, 0xFFFFFFFF), (3, 9)]) (fun t => (t.x 3, t.pc)) =
      some (0, 1) := by decide
/-- V-DIV-7: 0 by 0, and the destination is kept. -/
theorem test_div_zero_by_zero :
    after (machine [0x500000CA] [(3, 9)]) (fun t => (t.x 3, t.pc, t.run)) =
      some (9, 0, .faulted .divisionByZero) := by decide

/-- V-NAND-4. -/
theorem test_nand :
    after (machine [0x600000CA] [(1, 0xF0F0F0F0), (2, 0xFF00FF00)]) (fun t => (t.x 3, t.pc)) =
      some (0x0FFF0FFF, 1) := by decide

/-- V-HALT-2. -/
theorem test_halt_ignores_low_bits :
    after (machine [0x7FFFFFFF] []) (fun t => (t.run, t.pc)) = some (.halted, 0) := by decide

/-- V-MAP-5 with segment 1 mapped already: the length is read before the identifier is written. -/
theorem test_map_same_register :
    after (machine [0x80000009] [(1, 5)]) (fun t => (t.x 1, t.mem.len? 2, t.pc)) = some (2, some 5, 1) := by decide
/-- V-MAP-7. -/
theorem test_map_exhausted :
    after { machine [0x80000011] [(2, 9)] with cfg := ⟨.lifo, .allOnes, [⟨1, 1⟩]⟩ } (fun t => (t.x 2, t.run)) =
      some (9, .faulted .segmentSpaceExhausted) := by decide

/-- V-UNMAP-1. -/
theorem test_unmap :
    after (machine [0x90000002] [(2, 1)]) (fun t => (t.mem.mapped 1, t.x 2, t.allocator.freed, t.pc)) =
      some (false, 1, [1], 1) := by decide
/-- V-UNMAP-3. -/
theorem test_unmap_segment_zero :
    after (machine [0x90000000] []) (fun t => (t.run, t.pc)) = some (.faulted .freeOfSegmentZero, 0) := by decide

/-- V-OUT-3. -/
theorem test_out_255 :
    after (machine [0xA0000001] [(1, 255)]) (fun t => (t.output, t.pc)) = some ([0xFF], 1) := by decide
/-- V-OUT-4. -/
theorem test_out_256 :
    after (machine [0xA0000001] [(1, 256)]) (fun t => (t.output, t.run)) =
      some ([], .faulted .outputOverflow) := by decide

/-- V-IN-3: the byte 0xFF is zero-extended. -/
theorem test_in_byte_ff :
    after { machine [0xB0000001] [] with input := ⟨[0xFF], true, 0, false⟩ } (fun t => (t.x 1, t.input.pos, t.pc)) =
      some (0xFF, 1, 1) := by decide
/-- V-IN-4. -/
theorem test_in_end_of_input :
    after (machine [0xB0000001] []) (fun t => (t.x 1, t.input.eofSeen, t.pc)) =
      some (0xFFFFFFFF, true, 1) := by decide

/-- V-LOADP-2: the new program, the target, and the segment that stays mapped. -/
theorem test_loadp_other_segment :
    after (machine [0xC0000013, 0x70000000, 0] [(2, 1), (3, 1)])
      (fun t => (t.mem.program, t.mem.segs, t.pc)) =
      some (Segment.ofWords [0, 100], [(1, Segment.ofWords [0, 100])], 1) := by decide
/-- V-LOADP-3. -/
theorem test_loadp_unmapped :
    after (machine [0xC0000013] [(2, 4), (3, 7)]) (fun t => (t.mem.progLen, t.pc, t.run)) =
      some (1, 0, .faulted .unmappedSegmentAccess) := by decide

/-- V-LOADV-5: the destination is `reg_load`, bit 24 is not a sign. -/
theorem test_loadv :
    after (machine [0xDBFFFFFF] [(7, 9)]) (fun t => (t.x 5, t.x 7, t.pc)) = some (0x01FFFFFF, 9, 1) := by decide

/-- V-STEP-1. -/
theorem test_empty_program : after (machine [] []) (fun t => (t.run, t.pc)) = some (.halted, 0) := by decide
/-- V-STEP-4. -/
theorem test_illegal_word :
    after (machine [0xFFFFFFFF] []) (fun t => (t.run, t.pc)) = some (.faulted .invalidOpcode, 0) := by decide
/-- The third step of V-STEP-6: the pc is above the program's length. -/
theorem test_pc_beyond_the_end :
    after { machine [0, 0] [] with pc := 7 } (fun t => (t.run, t.pc)) =
      some (.faulted .outOfBoundsOffset, 7) := by decide

/-- The host's placement of a word at reset: `OUT r0`; and `MAP r2, r1` under `any`, whatever the draw. -/
theorem test_with_fetch_word :
    after (State.reset.withFetchWord 32 0xA0000000) (fun t => (t.output, t.pc, t.run)) = some ([0], 1, .running) ∧
    after (State.reset.withFetchWord 32 0x80000011) (fun t => (t.pc, t.run)) = some (1, .running) := by decide

/-! ## Witnesses: states and operands that meet the hypotheses of the statements -/

/-- A machine with `ID_SPACE` = {1, 2}, both mapped (V-MAP-7). -/
def full (p : AllocPolicy) : State :=
  { machine [0x80000011] [] with
    cfg := ⟨p, .allOnes, [⟨1, 2⟩]⟩
    mem := ⟨Segment.ofWords [0x80000011], [(1, Segment.zeros 1), (2, Segment.zeros 0)]⟩
    allocator := match p with
      | .any => ⟨[], []⟩
      | .lifo => ⟨[], [2, 1]⟩ }

/-- A machine under `any` with segment 1 mapped. -/
def anyMachine : State :=
  { machine [0x80000011, 0x90000001] [(1, 1)] with cfg := Config.default, allocator := ⟨[], []⟩ }

theorem vectors_lifoBook (program : List Word) (xs : List (Reg × Word)) : (machine program xs).LifoBook := by
  refine ⟨List.nodup_nil, by simp [machine], by simp [machine], ?_, by simp [machine]⟩
  simp only [machine, List.mem_singleton, forall_eq]
  exact ⟨by decide, .inl rfl⟩
theorem machine_inv (program : List Word) (xs : List (Reg × Word)) (h : (Segment.ofWords program).wf) :
    (machine program xs).Inv :=
  ⟨⟨h, by simp [machine, Cells.Rising], by
      simp only [machine, List.mem_singleton, forall_eq]; decide⟩,
    ⟨by simp only [State.IdsInSpace, machine, List.mem_singleton, forall_eq]; decide, fun h => (by cases h),
      fun _ => vectors_lifoBook program xs⟩,
    ⟨Nat.le_refl _, fun h => by cases h⟩⟩
theorem full_lifoBook : (full .lifo).LifoBook := by
  refine ⟨List.nodup_nil, by simp [full], by simp [full], ?_, by simp [full]⟩
  simp only [full, List.mem_cons, List.not_mem_nil, or_false, forall_eq_or_imp, forall_eq]
  exact ⟨⟨by decide, rfl⟩, by decide, rfl⟩
theorem full_inv (p : AllocPolicy) : (full p).Inv := by
  cases p with
  | any => exact ⟨by decide, ⟨by decide, fun _ => rfl, fun h => by cases h⟩, by decide⟩
  | lifo => exact ⟨by decide, ⟨by decide, fun h => (by cases h), fun _ => full_lifoBook⟩, by decide⟩

theorem anyMachine_inv : anyMachine.Inv :=
  ⟨by decide, ⟨by decide, fun _ => rfl, fun h => by cases h⟩, by decide⟩

theorem one_or_two {j : Word} (h : idInSpace [⟨1, 2⟩] j.toNat = true) : j = 1#32 ∨ j = 2#32 := by
  have hj : 0 < j.toNat ∧ 1 ≤ j.toNat ∧ j.toNat ≤ 2 := by simpa [idInSpace, idInRange] using h
  rcases (show j.toNat = 1 ∨ j.toNat = 2 by omega) with e | e
  · exact .inl (BitVec.eq_of_toNat_eq e)
  · exact .inr (BitVec.eq_of_toNat_eq e)

theorem full_has_no_unused (p : AllocPolicy) (i : Word) : (full p).allocatable i = false := by
  by_contra hne
  have h : idInSpace [⟨1, 2⟩] i.toNat = true ∧ (full p).mem.mapped i = false := by
    simpa [State.allocatable, full] using hne
  cases p <;> rcases one_or_two h.1 with rfl | rfl <;> exact absurd h.2 (by decide)

/-- A file of one word, and the empty file. -/
theorem witness_BootGivesTheResetStateWithTheProgram :
    let file : List Byte := [0xD0, 0x00, 0x00, 0x41]
    (file.length % 4 = 0 ∧ file.length / 4 < 2 ^ 32 ∧ 0 < file.length / 4) ∧
    (([] : List Byte).length % 4 = 0 ∧ ([] : List Byte).length / 4 < 2 ^ 32) := by decide

/-- Three bytes; and 2^32 words exactly, one more than a program may have. -/
theorem witness_LoaderRefusesMalformedAndOverlongFiles :
    ([0, 0, 0] : List Byte).length % 4 ≠ 0 ∧
    (List.replicate (2 ^ 34) (0 : Byte)).length % 4 = 0 ∧
    2 ^ 32 ≤ (List.replicate (2 ^ 34) (0 : Byte)).length / 4 := by
  rw [List.length_replicate]
  decide

theorem witness_ResetInputDiscardsTheEarlierRun :
    ([0x70000000] : List Word).length < 2 ^ 32 ∧ ([0x70000000] : List Word)[0]? = some 0x70000000 ∧
    State.reset.cfg = (State.reset.raise .divisionByZero).cfg := by decide

/-- Both ends of the range of opcodes, and the first illegal word. -/
theorem witness_OpcodeFieldSelectsTheInstruction :
    (0x0FFFFFFF#32 &&& 0xF0000000#32 = BitVec.ofNat 32 (0 * 2 ^ 28) ∧ (0 : Nat) < 14) ∧
    (0xDFFFFFFF#32 &&& 0xF0000000#32 = BitVec.ofNat 32 (13 * 2 ^ 28) ∧ (13 : Nat) < 14) ∧
    0xE0000000#32 ≤ 0xE0000000#32 := by decide

/-- V-DEC-4 and its canonical word. -/
theorem witness_UnusedBitsAreIgnored :
    decode 0x3FFFFE53#32 = .ok (.add 1 2 3) ∧
    0x3FFFFE53#32 &&& (Instr.add 1 2 3).usedBits = 0x30000053#32 &&& (Instr.add 1 2 3).usedBits :=
  ⟨rfl, by decide⟩

theorem witness_DecodeOfEncodeIsTheInstruction :
    (Instr.loadv 7 0x1FFFFFF).WellFormed ∧ (Instr.cmov 7 0 7).WellFormed := by decide

theorem witness_DecodedWordsAreWellFormedAndReencode : decode 0xCABCDEF7#32 = .ok (.loadp 6 7) := rfl

theorem witness_CmovMovesWhenTheConditionIsNotZero :
    fieldOf 0x0FFFFFFF#32 28 4 = 0 ∧
    (machine [0x171] [(1, 0x80000000)]).x 1 ≠ 0#32 ∧ (machine [0x171] [(1, 0)]).x 1 = 0#32 := by decide

/-- The last valid offset, an unmapped identifier, and the offset that equals the length. -/
theorem witness_SloadReadsAWordOrFaults :
    fieldOf 0x10000154#32 28 4 = 1 ∧
    (∃ g, (machine [0x10000154] [(2, 1), (4, 1)]).mem.seg? ((machine [0x10000154] [(2, 1), (4, 1)]).x 2) = some g ∧
      (machine [0x10000154] [(2, 1), (4, 1)]).x 4 < g.len) ∧
    (machine [0x10000154] [(2, 9)]).mem.mapped ((machine [0x10000154] [(2, 9)]).x 2) = false ∧
    (∃ g, (machine [0x10000154] [(2, 1), (4, 2)]).mem.seg? ((machine [0x10000154] [(2, 1), (4, 2)]).x 2) = some g ∧
      g.len ≤ (machine [0x10000154] [(2, 1), (4, 2)]).x 4) :=
  ⟨by decide, ⟨_, rfl, by decide⟩, by decide, ⟨_, rfl, by decide⟩⟩

theorem witness_SstoreWritesOneWordOrFaults :
    fieldOf 0x200000A3#32 28 4 = 2 ∧
    ((machine [0x200000A3] [(2, 1), (4, 1)]).storeAddress 2 4 = (1, 1) ∧
      ∃ g, (machine [0x200000A3] [(2, 1), (4, 1)]).mem.seg? 1 = some g ∧ (1 : Word) < g.len) ∧
    ((machine [0x200000A3] [(2, 5)]).storeAddress 2 4 = (5, 0) ∧
      (machine [0x200000A3] [(2, 5)]).mem.mapped 5 = false) ∧
    ((machine [0x200000A3] [(2, 1), (4, 2)]).storeAddress 2 4 = (1, 2) ∧
      ∃ g, (machine [0x200000A3] [(2, 1), (4, 2)]).mem.seg? 1 = some g ∧ g.len ≤ (2 : Word)) :=
  ⟨by decide, ⟨by decide, _, rfl, by decide⟩, by decide, ⟨by decide, _, rfl, by decide⟩⟩

theorem witness_AluInstructions :
    fieldOf 0x300000CA#32 28 4 = 3 ∧ fieldOf 0x400000CA#32 28 4 = 4 ∧ fieldOf 0x500000CA#32 28 4 = 5 ∧
    fieldOf 0x600000CA#32 28 4 = 6 ∧
    (machine [0x500000CA] [(2, 1)]).x 2 ≠ 0#32 ∧ (machine [0x500000CA] []).x 2 = 0#32 := by decide

theorem witness_HaltEndsTheRunInPlace : fieldOf 0x7FFFFFFF#32 28 4 = 7 := by decide

theorem witness_MapGivesAFreshZeroSegmentOrFaults :
    fieldOf 0x80000011#32 28 4 = 8 ∧
    ((machine [0x80000011] [(1, 5)]).Inv ∧ ∃ i, (machine [0x80000011] [(1, 5)]).allocatable i = true) ∧
    (anyMachine.Inv ∧ ∃ i, anyMachine.allocatable i = true) ∧
    ((full .lifo).Inv ∧ ∀ i, (full .lifo).allocatable i = false) ∧
    ((full .any).Inv ∧ ∀ i, (full .any).allocatable i = false) ∧
    (machine [0x80000011] [(1, 5)]).cfg.allocPolicy = .lifo ∧ anyMachine.cfg.allocPolicy = .any :=
  ⟨by decide, ⟨machine_inv _ _ (by decide), 0xFFFFFFFF#32, by decide⟩, ⟨anyMachine_inv, 2#32, by decide⟩,
    ⟨full_inv _, full_has_no_unused _⟩, ⟨full_inv _, full_has_no_unused _⟩, rfl, rfl⟩

theorem witness_UnmapFreesTheSegmentOrFaults :
    fieldOf 0x90000001#32 28 4 = 9 ∧
    (anyMachine.x 1 ≠ 0#32 ∧ anyMachine.mem.mapped (anyMachine.x 1) = true ∧ anyMachine.IdsInSpace ∧
      anyMachine.cfg.allocPolicy = .any) ∧
    ((machine [] [(1, 1)]).x 1 ≠ 0#32 ∧ (machine [] [(1, 1)]).mem.mapped ((machine [] [(1, 1)]).x 1) = true ∧
      (machine [] [(1, 1)]).IdsInSpace ∧ (machine [] [(1, 1)]).cfg.allocPolicy = .lifo) ∧
    (machine [] []).x 1 = 0#32 ∧
    ((machine [] [(1, 2)]).x 1 ≠ 0#32 ∧ (machine [] [(1, 2)]).mem.mapped ((machine [] [(1, 2)]).x 1) = false) := by
  decide

theorem witness_OutEmitsOneByteOrFaults :
    fieldOf 0xA0000001#32 28 4 = 10 ∧
    ((machine [] [(1, 255)]).x 1).toNat ≤ 255 ∧ 255 < ((machine [] [(1, 256)]).x 1).toNat := by decide

/-- A byte to take; end of input signalled before, and end of input reached now, under either policy. -/
theorem witness_InTakesTheNextByteOrSeesTheEnd :
    fieldOf 0xB0000001#32 28 4 = 11 ∧
    (let i : InputStream := ⟨[0xFF], false, 0, false⟩;
      i.eofSeen = false ∧ i.bytes[i.pos]? = some 0xFF) ∧
    (let i : InputStream := ⟨[], true, 0, true⟩;
      i.eofSeen = true) ∧
    (let i : InputStream := ⟨[7], true, 1, false⟩;
      i.bytes[i.pos]? = none ∧ i.closed = true) ∧
    (machine [] []).cfg.eofPolicy = .allOnes ∧
    { machine [] [] with cfg := ⟨.lifo, .fault, []⟩ }.cfg.eofPolicy = .fault := by decide

theorem witness_LoadpReplacesTheProgramAndJumps :
    fieldOf 0xC0000013#32 28 4 = 12 ∧
    (machine [] [(2, 1)]).mem.mapped ((machine [] [(2, 1)]).x 2) = true ∧
    ((machine [] []).mem.mapped ((machine [] []).x 2) = true ∧ (machine [] []).x 2 = 0#32) ∧
    (machine [] [(2, 4)]).mem.mapped ((machine [] [(2, 4)]).x 2) = false := by decide

theorem witness_LoadvLoadsTheZeroExtendedImmediate :
    fieldOf 0xDFFFFFFF#32 28 4 = 13 ∧ 0x1FFFFFF#32 ≤ 0x1FFFFFF#32 := by decide

/-- For MemRead and MemWrite: unmapped; the first offset beyond the segment and the last one in it. -/
theorem witness_MemReadAndMemWrite :
    (machine [] []).mem.mapped 2 = false ∧ (machine [] []).mem.len? 1 = some 2 ∧
    (2 : Word) ≤ 2 ∧ (1 : Word) < 2 := by decide

theorem witness_LoadProgramMakesASeparateCopy :
    (machine [] []).mem.mapped 2 = false ∧ (machine [] []).mem.mapped 1 = true ∧ (1#32 ≠ 0#32) ∧
    (∃ m n k, (machine [] []).mem.loadProgram 1 = .ok m ∧ m.write 1 1 5 = .ok n ∧ m.write 0 1 5 = .ok k) :=
  ⟨by decide, by decide, by decide, _, _, _, rfl, rfl, rfl⟩

theorem witness_AnyPolicyDrawsExactlyTheUnusedIdentifiers :
    anyMachine.cfg.allocPolicy = .any ∧ (∃ u, anyMachine.allocWithDraw 3 5 = .ok (5#32, u)) ∧
    anyMachine.allocatable 0xFFFFFFFF = true ∧
    ((full .any).cfg.allocPolicy = .any ∧ (∀ id, (full .any).allocatable id = false) ∧
      (full .any).allocWithDraw 3 5 = .error .segmentSpaceExhausted) :=
  ⟨rfl, ⟨_, rfl⟩, by decide, rfl, full_has_no_unused _, rfl⟩

/-- A freed identifier; none freed and 2 the smallest never handed out; none left. -/
theorem witness_LifoReusesTheMostRecentlyFreed :
    ((machine [] []).cfg.allocPolicy = .lifo ∧
      { machine [] [] with allocator := ⟨[1], [1]⟩ }.allocator.freed = 1#32 :: []) ∧
    ((full .lifo).cfg.allocPolicy = .lifo ∧
      { full .lifo with allocator := ⟨[], [1]⟩ }.allocator.freed = [] ∧
      idInSpace (full .lifo).cfg.idSpace (2#32).toNat = true ∧ 2#32 ∉ [1#32] ∧
      ∀ j : Word, idInSpace (full .lifo).cfg.idSpace j.toNat = true → j ∉ [1#32] → 2#32 ≤ j) ∧
    ((full .lifo).allocator.freed = [] ∧
      ∀ j : Word, idInSpace (full .lifo).cfg.idSpace j.toNat = true → j ∈ (full .lifo).allocator.used) := by
  refine ⟨by decide, ⟨rfl, rfl, by decide, by decide, fun j hj hne => ?_⟩, rfl, fun j hj => ?_⟩
  · rcases one_or_two hj with rfl | rfl
    · exact absurd (by decide) hne
    · decide
  · rcases one_or_two hj with rfl | rfl <;> decide

theorem witness_LifoIsOneOfTheBehavioursOfAny :
    ((machine [0x80000011] [(1, 5)]).Inv ∧ (machine [0x80000011] [(1, 5)]).cfg.allocPolicy = .lifo ∧
      ∃ u, (machine [0x80000011] [(1, 5)]).allocWithDraw 5 0 = .ok (2#32, u)) ∧
    ((full .lifo).Inv ∧ (full .lifo).allocWithDraw 5 0 = .error .segmentSpaceExhausted) :=
  ⟨⟨machine_inv _ _ (by decide), rfl, _, rfl⟩, full_inv _, rfl⟩

/-- The memory of the vectors, and the same after a word is stored and stored back. -/
theorem witness_CanonicalMemoriesThatReadAlikeAreEqual :
    ∃ m n k : Memory, m.wf ∧ n.wf ∧ m.write 1 0 7 = .ok k ∧ k.write 1 0 0 = .ok n ∧
      ∀ id off, m.read id off = n.read id off :=
  ⟨(machine [] []).mem, (machine [] []).mem, _, by decide, by decide, rfl, rfl, fun _ _ => rfl⟩

theorem witness_StepRunsTheFetchedInstruction :
    (machine [0x70000000] []).run = .running ∧
    (machine [0x70000000] []).mem.read 0#32 (machine [0x70000000] []).pc = .ok 0x70000000#32 ∧
    decode 0x70000000#32 = .ok .halt := ⟨rfl, rfl, rfl⟩

theorem witness_EndOfProgramIsCheckedBeforeFetch :
    (machine [0] []).run = .running ∧ (machine [0] []).pc < (machine [0] []).mem.progLen ∧
    { machine [0] [] with pc := 1 }.pc = (machine [0] []).mem.progLen ∧
    (machine [0] []).mem.progLen < { machine [0] [] with pc := 2 }.pc := by decide

theorem witness_IllegalWordFaultsWhenFetched :
    ((machine [0xE0000000] []).run = .running ∧
      (machine [0xE0000000] []).mem.read 0#32 0 = .ok 0xE0000000#32 ∧ fieldOf 0xE0000000#32 28 4 = 14) ∧
    ((machine [0xFFFFFFFF] []).run = .running ∧
      (machine [0xFFFFFFFF] []).mem.read 0#32 0 = .ok 0xFFFFFFFF#32 ∧ fieldOf 0xFFFFFFFF#32 28 4 = 15) :=
  ⟨⟨rfl, rfl, by decide⟩, rfl, rfl, by decide⟩

theorem witness_TerminalStatesTakeNoStep :
    (machine [] []).halt.run = .halted ∧ ((machine [] []).raise .inputExhausted).run = .faulted .inputExhausted := by
  decide

/-- P2: a step that faults. -/
theorem witness_FaultsArePrecise :
    ∃ t, step (machine [0x50000000] []) = .next t ∧ t.run = .faulted .divisionByZero := ⟨_, rfl, rfl⟩

theorem witness_EachInstructionRaisesOnlyItsFaults :
    (machine [] []).run = .running ∧
    ∃ t, exec (.unmap 0) (machine [] []) = .next t ∧ t.run = .faulted .freeOfSegmentZero := ⟨rfl, _, rfl, rfl⟩

/-- By HALT, and at the end of the program. -/
theorem witness_HaltedIsEnteredByHaltOrAtTheEnd :
    (∃ t, step (machine [0x70000000] []) = .next t ∧ t.run = .halted) ∧
    (∃ t, step (machine [] []) = .next t ∧ t.run = .halted) := ⟨⟨_, rfl, rfl⟩, _, rfl, rfl⟩

/-- A step that ends the run; a LOADP; another instruction; a held IN. -/
theorem witness_PcAdvancesByOneOrIsLoaded :
    (∃ t, step (machine [0x70000000] []) = .next t ∧ t.run ≠ .running) ∧
    (∃ t, step (machine [0xC0000005] [(5, 3)]) = .next t ∧ t.run = .running) ∧
    (∃ t, step (machine [0x30000000] []) = .next t ∧ t.run = .running) ∧
    (∃ t, step { machine [0xB0000001] [] with input := ⟨[], false, 0, false⟩ } = .next t ∧ t.run = .running) :=
  ⟨⟨_, rfl, by decide⟩, ⟨_, rfl, rfl⟩, ⟨_, rfl, rfl⟩, _, rfl, rfl⟩

theorem witness_OnlyTheDestinationRegisterChanges :
    ∃ t, exec (.add 1 2 3) (machine [] [(2, 1)]) = .next t ∧ destination (.add 1 2 3) ≠ some 2 :=
  ⟨_, rfl, by decide⟩

/-- The destination of an ADD holds something else in the second run. -/
theorem witness_OnlyTheSourceRegistersAreRead :
    let f : RegFile := (machine [] [(2, 1)]).regs.set 1 9
    (∀ r ∈ sources (.add 1 2 3), f.get r = (machine [] [(2, 1)]).x r) ∧
    (∃ t, exec (.add 1 2 3) (machine [] [(2, 1)]) = .next t) ∧
    (∃ u, exec (.add 1 2 3) { machine [] [(2, 1)] with regs := f } = .next u) :=
  ⟨by decide, ⟨_, rfl⟩, _, rfl⟩

theorem witness_OnlyMapAndUnmapChangeTheMapping :
    (∃ t, exec (.map 2 1) (machine [] [(1, 5)]) = .next t ∧ (machine [] [(1, 5)]).mem.mapped 2 = false ∧
      t.mem.mapped 2 = true) ∧
    (∃ t, exec (.unmap 1) (machine [] [(1, 1)]) = .next t ∧ (machine [] [(1, 1)]).mem.mapped 1 = true ∧
      t.mem.mapped 1 = false) :=
  ⟨⟨_, rfl, by decide, by decide⟩, _, rfl, by decide, by decide⟩

/-- A LOADP changes the length of segment 0 and not that of segment 1. -/
theorem witness_SegmentLengthsAreFixedAtCreation :
    (machine [0xC0000013] [(2, 1)]).Inv ∧ ∃ t, step (machine [0xC0000013] [(2, 1)]) = .next t ∧
      (machine [0xC0000013] [(2, 1)]).mem.len? 1 = some 2 ∧ t.mem.len? 1 = some 2 ∧
      t.mem.progLen ≠ (machine [0xC0000013] [(2, 1)]).mem.progLen :=
  ⟨machine_inv _ _ (by decide), _, rfl, by decide, by decide, by decide⟩

/-- V-SSTORE-5: the store goes to the next word. -/
theorem witness_StoresIntoTheProgramAreSeenByTheNextFetch :
    let s := machine [0x200000A3, 0] [(4, 1), (3, 0x70000000)]
    s.run = .running ∧ s.mem.read 0#32 s.pc = .ok 0x200000A3#32 ∧ decode 0x200000A3#32 = .ok (.sstore 2 4 3) ∧
    s.x 2 = 0#32 ∧ s.x 4 < s.mem.progLen ∧ s.x 4 = s.pc + 1#32 ∧ decode (s.x 3) = .ok .halt :=
  ⟨rfl, rfl, rfl, by decide, by decide, by decide, rfl⟩

theorem witness_OnlyInAndOutTouchTheStreams :
    (∃ t, step (machine [0xA0000001] [(1, 65)]) = .next t ∧ t.output ≠ (machine [0xA0000001] [(1, 65)]).output) ∧
    (∃ t, step { machine [0xB0000001] [] with input := ⟨[5], true, 0, false⟩ } = .next t ∧ t.input.pos = 1) ∧
    (∃ t, step { machine [0xB0000001] [] with input := ⟨[5], true, 1, true⟩ } = .next t) :=
  ⟨⟨_, rfl, by decide⟩, ⟨_, rfl, by decide⟩, _, rfl⟩

theorem witness_OutputHistoryIsNeverRead :
    (∃ t, step (machine [0xA0000001] [(1, 65)]) = .next t) ∧
    step (machine [] []).halt = .fault .noStepHalted := ⟨⟨_, rfl⟩, rfl⟩

theorem witness_HeldInputWaitsForTheDevice :
    let s := { machine [] [] with input := ⟨[5], false, 1, false⟩ }
    s.input.eofSeen = false ∧ s.input.closed = false ∧ s.input.pos = s.input.bytes.length ∧
    s.cfg.eofPolicy = .allOnes := by decide

theorem witness_EndOfInputIsSticky :
    (machine [] []).cfg.eofPolicy = .allOnes ∧ (machine [] []).input.poll = .eof ∧
    ∃ t u, exec (.inp 1) (machine [] []) = .next t ∧ (u : State).input = t.input ∧ u.cfg = t.cfg ∧ u.pc ≠ t.pc :=
  ⟨rfl, rfl, _, (machine [] [(1, 5)]).withInput ⟨[], true, 0, true⟩, rfl, rfl, rfl, by decide⟩

theorem witness_LifoStepsIgnoreTheDraws :
    (machine [0x80000011] []).cfg.allocPolicy = .lifo ∧ ∃ t, step (machine [0x80000011] []) = .next t :=
  ⟨rfl, _, rfl⟩

theorem witness_AluIdentitiesHold : (7#32 ≠ 0#32) ∧ (31 : Nat) ≤ 31 := by decide

theorem witness_ConditionalBranchIdiomBranches :
    let s := machine [] [(3, 1)]
    s.x 0 = 0#32 ∧ (1 : Reg) ≠ 2 ∧ (1 : Reg) ≠ 0 ∧ (2 : Reg) ≠ 0 ∧ (3 : Reg) ≠ 1 ∧ (3 : Reg) ≠ 2 ∧
    0x1FFFFFF#32 ≤ 0x1FFFFFF#32 ∧ 0#32 ≤ 0x1FFFFFF#32 ∧ s.x 3 ≠ 0#32 ∧ (machine [] []).x 3 = 0#32 := by decide

theorem witness_EveryStepKeepsTheInvariant :
    (machine [0x80000011] [(1, 5)]).Inv ∧ ∃ t, step (machine [0x80000011] [(1, 5)]) = .next t ∧ t.x 2 = 2 :=
  ⟨machine_inv _ _ (by decide), _, rfl, by decide⟩

/-- Program P1, after its first two steps. -/
theorem witness_EveryStateOfABootedRunMeetsTheInvariant :
    ∃ s t, State.boot lifoCfg [0xD0, 0, 0, 0x41, 0xA0, 0, 0, 0] [] true = .ok s ∧ State.After 2 s t ∧
      t.output = [65] :=
  ⟨_, _, rfl, rfl, by decide⟩

/-- Also where the pc cannot hold an instruction. -/
theorem witness_APlacedWordIsTheNextInstruction :
    decodeTableWord 32 0xDFFFFFFF = some (.loadv 7 0x1FFFFFF) ∧
    ({ State.reset with pc := 0xFFFFFFFF }.withFetchWord 32 0xDFFFFFFF).pc = 0#32 := by decide

end Sys2Proof.Tests
end

section
/-! SUPPORT. The laws of the loader: which files have words, what those words are, and every value of the state that
holds a program right after reset (10_state.md R45; 70_reset_and_hazards.md R265). -/

namespace Sys2Proof.Machine

/-! ## The words of a program file -/

/-- Four bytes never exceed a word, so the big-endian number is kept whole (20_memory.md R70). -/
theorem wordOfBytes_toNat (b0 b1 b2 b3 : Byte) :
    (wordOfBytes b0 b1 b2 b3).toNat = b0.toNat * 2 ^ 24 + b1.toNat * 2 ^ 16 + b2.toNat * 2 ^ 8 + b3.toNat := by
  have h0 := b0.isLt
  have h1 := b1.isLt
  have h2 := b2.isLt
  have h3 := b3.isLt
  rw [wordOfBytes, BitVec.toNat_ofNat]
  omega

theorem exists_wordsOfFile {file : List Byte} (h : file.length % 4 = 0) : ∃ ws, wordsOfFile file = some ws := by
  induction file using wordsOfFile.induct with
  | case1 => exact ⟨[], rfl⟩
  | case2 b0 b1 b2 b3 rest ih =>
    obtain ⟨ws, hws⟩ := ih (by simp only [List.length_cons] at h; omega)
    exact ⟨wordOfBytes b0 b1 b2 b3 :: ws, by simp [wordsOfFile, hws]⟩
  | case3 file hnil hcons =>
    -- one, two or three bytes: no whole words
    match file with
    | [] => exact absurd rfl hnil
    | [_] | [_, _] | [_, _, _] => simp at h
    | b0 :: b1 :: b2 :: b3 :: rest => exact absurd rfl (hcons b0 b1 b2 b3 rest)

/-- The head of a non-empty word list comes from the first four bytes, its tail from the bytes after them. -/
theorem wordsOfFile_cons_eq_some {b0 b1 b2 b3 : Byte} {rest : List Byte} {ws : List Word}
    (h : wordsOfFile (b0 :: b1 :: b2 :: b3 :: rest) = some ws) :
    ∃ tail, wordsOfFile rest = some tail ∧ ws = wordOfBytes b0 b1 b2 b3 :: tail := by
  obtain ⟨tail, htail, rfl⟩ := Option.map_eq_some_iff.1 h
  exact ⟨tail, htail, rfl⟩

theorem length_of_wordsOfFile {file : List Byte} {ws : List Word} (h : wordsOfFile file = some ws) :
    file.length = 4 * ws.length := by
  induction file using wordsOfFile.induct generalizing ws with
  | case1 => cases h; rfl
  | case2 b0 b1 b2 b3 rest ih =>
    obtain ⟨tail, htail, rfl⟩ := wordsOfFile_cons_eq_some h
    simp only [List.length_cons, ih htail]
    omega
  | case3 => simp [wordsOfFile] at h

/-- Word `k` of a file is made of its bytes `4k .. 4k+3` (R265). -/
theorem getElem?_of_wordsOfFile {file : List Byte} {ws : List Word} (h : wordsOfFile file = some ws) {k : Nat}
    (hk : k < ws.length) : ∃ b0 b1 b2 b3, file[4 * k]? = some b0 ∧ file[4 * k + 1]? = some b1 ∧
      file[4 * k + 2]? = some b2 ∧ file[4 * k + 3]? = some b3 ∧ ws[k]? = some (wordOfBytes b0 b1 b2 b3) := by
  induction file using wordsOfFile.induct generalizing ws k with
  | case1 => cases h; simp at hk
  | case2 b0 b1 b2 b3 rest ih =>
    obtain ⟨tail, htail, rfl⟩ := wordsOfFile_cons_eq_some h
    cases k with
    | zero => exact ⟨b0, b1, b2, b3, rfl, rfl, rfl, rfl, rfl⟩
    | succ k => exact ih htail (Nat.lt_of_succ_lt_succ hk)
  | case3 => simp [wordsOfFile] at h

/-! ## The loaded state -/

theorem Segment.ofWords_len_toNat {ws : List Word} (h : ws.length < 2 ^ 32) :
    (Segment.ofWords ws).len.toNat = ws.length := by
  rw [Segment.ofWords, BitVec.toNat_ofNat, Nat.mod_eq_of_lt h]

section
variable (cfg : Config) (ws : List Word) (bytes : List Byte) (closed : Bool)

@[simp] theorem State.loaded_x (r : Reg) : (State.loaded cfg ws bytes closed).x r = 0#32 := by
  fin_cases r <;> rfl

/-- Nothing but segment 0 is mapped (R45). -/
theorem State.loaded_mapped_iff (id : Word) :
    (State.loaded cfg ws bytes closed).mem.mapped id = true ↔ id = 0#32 := by
  by_cases hid : id = 0#32
  · simp [hid]
  · simp [Memory.mapped_iff_mem_ids _ hid, hid, State.loaded, Memory.ids, Cells.keys]

theorem State.loaded_progLen_toNat (h : ws.length < 2 ^ 32) :
    (State.loaded cfg ws bytes closed).mem.progLen.toNat = ws.length :=
  Segment.ofWords_len_toNat h

theorem State.loaded_read (h : ws.length < 2 ^ 32) {k : Nat} {w : Word} (hw : ws[k]? = some w) :
    (State.loaded cfg ws bytes closed).mem.read 0#32 (BitVec.ofNat 32 k) = .ok w := by
  have hk : k < ws.length := (List.getElem?_eq_some_iff.1 hw).1
  have hoff : (BitVec.ofNat 32 k).toNat = k := by
    rw [BitVec.toNat_ofNat, Nat.mod_eq_of_lt (hk.trans h)]
  refine (Memory.read_eq_ok_iff ..).2 ⟨Segment.ofWords ws, rfl, ?_, ?_⟩
  · rwa [BitVec.lt_def, hoff, Segment.ofWords_len_toNat h]
  · rw [Segment.ofWords_word, hoff, hw, Option.getD_some]

theorem State.boot_eq_ok_loaded {file : List Byte} {ws : List Word} (hws : wordsOfFile file = some ws)
    (h : ws.length < 2 ^ 32) : State.boot cfg file bytes closed = .ok (State.loaded cfg ws bytes closed) := by
  simp only [State.boot, hws, if_neg (Nat.not_le.2 h)]

end

/-! ## The obligation -/

/-- Settles O2: a file of whole words boots into `State.loaded`, whose values are the laws above. -/
theorem bootGivesTheResetStateWithTheProgram : Obligations.BootGivesTheResetStateWithTheProgram := by
  intro cfg file bytes closed haligned hshort
  obtain ⟨ws, hws⟩ := exists_wordsOfFile haligned
  have hcount : file.length / 4 = ws.length := by
    rw [length_of_wordsOfFile hws, Nat.mul_div_cancel_left _ (by decide)]
  rw [hcount] at hshort ⊢
  refine ⟨State.loaded cfg ws bytes closed, State.boot_eq_ok_loaded cfg bytes closed hws hshort,
    State.loaded_x cfg ws bytes closed, rfl, rfl, rfl, rfl, State.loaded_mapped_iff cfg ws bytes closed,
    State.loaded_progLen_toNat cfg ws bytes closed hshort, fun k hk => ?_, rfl, rfl, rfl, rfl, rfl, rfl, rfl, rfl⟩
  obtain ⟨b0, b1, b2, b3, h0, h1, h2, h3, hw⟩ := getElem?_of_wordsOfFile hws hk
  exact ⟨b0, b1, b2, b3, wordOfBytes b0 b1 b2 b3, h0, h1, h2, h3,
    State.loaded_read cfg ws bytes closed hshort hw, wordOfBytes_toNat b0 b1 b2 b3⟩

end Sys2Proof.Machine
end

section
/-! SUPPORT. What MemRead, MemWrite and LoadProgram answer and leave unchanged (20_memory.md R56, R57, R62), and which
instructions touch the memory map (R51). -/

namespace Sys2Proof.Machine

/-! ## Mapped identifiers and lengths -/

theorem Memory.mapped_eq_false_iff (m : Memory) (id : Word) : m.mapped id = false ↔ m.seg? id = none :=
  Option.isSome_eq_false_iff.trans Option.isNone_iff_eq_none

theorem Memory.mapped_eq_true_iff (m : Memory) (id : Word) : m.mapped id = true ↔ ∃ g, m.seg? id = some g :=
  Option.isSome_iff_exists

theorem Memory.len?_eq_some_iff (m : Memory) (id n : Word) :
    m.len? id = some n ↔ ∃ g, m.seg? id = some g ∧ g.len = n :=
  Option.map_eq_some_iff

/-- An identifier is mapped exactly when it has a length. -/
theorem Memory.isSome_len? (m : Memory) (id : Word) : (m.len? id).isSome = m.mapped id :=
  Option.isSome_map

theorem Memory.mapped_congr {m n : Memory} {id : Word} (h : m.seg? id = n.seg? id) : m.mapped id = n.mapped id :=
  congrArg Option.isSome h

theorem Memory.len?_congr {m n : Memory} {i j : Word} (h : m.seg? i = n.seg? j) : m.len? i = n.len? j :=
  congrArg (Option.map Segment.len) h

theorem Memory.setSeg_mapped_self (m : Memory) (id : Word) (g : Segment) : (m.setSeg id g).mapped id = true :=
  (Memory.mapped_eq_true_iff _ _).2 ⟨g, Memory.setSeg_seg?_self m id g⟩

/-! ## MemRead -/

theorem Memory.read_of_unmapped {m : Memory} {id : Word} (h : m.mapped id = false) (off : Word) :
    m.read id off = .error .unmappedSegmentAccess := by
  simp [Memory.read, (Memory.mapped_eq_false_iff m id).1 h]

theorem Memory.read_of_len_le {m : Memory} {id n off : Word} (hn : m.len? id = some n) (h : n ≤ off) :
    m.read id off = .error .outOfBoundsOffset := by
  obtain ⟨g, hg, rfl⟩ := (Memory.len?_eq_some_iff m id n).1 hn
  rw [Memory.read_of_seg? hg, if_neg (BitVec.not_lt.2 h)]

theorem Memory.read_of_lt_len {m : Memory} {id off : Word} {g : Segment} (hg : m.seg? id = some g)
    (h : off < g.len) : m.read id off = .ok (g.word off) :=
  (Memory.read_eq_ok_iff m id off _).2 ⟨g, hg, h, rfl⟩

/-- Settles O27: the two checks in order, then the word. -/
theorem memReadChecksThenReads : Obligations.MemReadChecksThenReads := by
  intro m id off
  refine ⟨fun h => Memory.read_of_unmapped h off, fun n hn => ⟨Memory.read_of_len_le hn, fun h => ?_⟩⟩
  obtain ⟨g, hg, rfl⟩ := (Memory.len?_eq_some_iff m id n).1 hn
  exact ⟨g, hg, Memory.read_of_lt_len hg h⟩

/-! ## MemWrite -/

theorem Memory.write_of_lt_len {m : Memory} {id off : Word} {g : Segment} (hg : m.seg? id = some g)
    (h : off < g.len) (v : Word) : m.write id off v = .ok (m.setSeg id (g.setWord off v)) := by
  simp only [Memory.write, hg, if_pos h]

section
variable {m m' : Memory} {id off v : Word} (h : m.write id off v = .ok m')
include h

theorem Memory.write_seg?_ne {j : Word} (hj : j ≠ id) : m'.seg? j = m.seg? j := by
  obtain ⟨g, -, -, rfl⟩ := Memory.write_eq_ok h
  exact Memory.setSeg_seg?_ne m _ hj

theorem Memory.write_read_self : m'.read id off = .ok v := by
  obtain ⟨g, -, hlt, rfl⟩ := Memory.write_eq_ok h
  rw [Memory.read_of_seg? (Memory.setSeg_seg?_self ..), Segment.setWord_len, if_pos hlt, Segment.setWord_word_self]

/-- Every other word, of the same segment or of another, reads as before. -/
theorem Memory.write_read_ne {j o : Word} (hne : (j, o) ≠ (id, off)) : m'.read j o = m.read j o := by
  by_cases hj : j = id
  · subst hj
    have ho : o ≠ off := fun e => hne (e ▸ rfl)
    obtain ⟨g, hg, -, rfl⟩ := Memory.write_eq_ok h
    rw [Memory.read_of_seg? (Memory.setSeg_seg?_self ..), Memory.read_of_seg? hg, Segment.setWord_len,
      Segment.setWord_word_ne g v ho]
  · exact Memory.read_congr (Memory.write_seg?_ne h hj) o

theorem Memory.write_len? (j : Word) : m'.len? j = m.len? j := by
  by_cases hj : j = id
  · subst hj
    obtain ⟨g, hg, -, rfl⟩ := Memory.write_eq_ok h
    simp [Memory.len?, hg]
  · exact Memory.len?_congr (Memory.write_seg?_ne h hj)

theorem Memory.write_mapped (j : Word) : m'.mapped j = m.mapped j := by
  rw [← Memory.isSome_len?, ← Memory.isSome_len?, Memory.write_len? h]

end

/-- Settles O28: the faults are those of MemRead; a write that succeeds changes the one word. -/
theorem memWriteChangesOneWord : Obligations.MemWriteChangesOneWord := by
  intro m id off v
  simp only [Memory.write_eq_error_iff]
  refine ⟨fun h => Memory.read_of_unmapped h off, fun n hn => ⟨Memory.read_of_len_le hn, fun h => ?_⟩⟩
  obtain ⟨g, hg, rfl⟩ := (Memory.len?_eq_some_iff m id n).1 hn
  have hw := Memory.write_of_lt_len hg h v
  exact ⟨_, hw, Memory.write_read_self hw, fun j o => Memory.write_read_ne hw, Memory.write_len? hw⟩

/-! ## LoadProgram -/

theorem Memory.loadProgram_of_unmapped {m : Memory} {id : Word} (h : m.mapped id = false) :
    m.loadProgram id = .error .unmappedSegmentAccess := by
  simp [Memory.loadProgram, (Memory.mapped_eq_false_iff m id).1 h]

theorem Memory.loadProgram_of_mapped {m : Memory} {id : Word} (h : m.mapped id = true) :
    ∃ m', m.loadProgram id = .ok m' := by
  obtain ⟨g, hg⟩ := (Memory.mapped_eq_true_iff m id).1 h
  exact ⟨{ m with program := g }, by simp only [Memory.loadProgram, hg]⟩

/-- Loading segment 0 onto itself changes nothing. -/
@[simp] theorem Memory.loadProgram_zero (m : Memory) : m.loadProgram 0#32 = .ok m := rfl

section
variable {m m' : Memory} {id : Word} (h : m.loadProgram id = .ok m')
include h

theorem Memory.loadProgram_seg?_zero : m'.seg? 0#32 = m.seg? id := by
  obtain ⟨g, hg, rfl⟩ := Memory.loadProgram_eq_ok h
  rw [Memory.seg?_zero, hg]

theorem Memory.loadProgram_seg?_ne {j : Word} (hj : j ≠ 0#32) : m'.seg? j = m.seg? j := by
  obtain ⟨g, -, rfl⟩ := Memory.loadProgram_eq_ok h
  rw [Memory.seg?_ne_zero _ hj, Memory.seg?_ne_zero _ hj]

/-- Segment 0 reads as the segment it was copied from. -/
theorem Memory.loadProgram_read_zero (off : Word) : m'.read 0#32 off = m.read id off := by
  simp only [Memory.read, Memory.loadProgram_seg?_zero h]

theorem Memory.loadProgram_mapped (j : Word) : m'.mapped j = m.mapped j := by
  by_cases hj : j = 0#32
  · rw [hj, Memory.mapped_zero, Memory.mapped_zero]
  · exact Memory.mapped_congr (Memory.loadProgram_seg?_ne h hj)

end

/-- Settles O29: the copy is equal, and it is separate because MemWrite leaves every other segment's words. -/
theorem loadProgramMakesASeparateCopy : Obligations.LoadProgramMakesASeparateCopy := by
  intro m id
  refine ⟨Memory.loadProgram_of_unmapped, fun hmapped => ?_⟩
  obtain ⟨m', h⟩ := Memory.loadProgram_of_mapped hmapped
  have hself : id = 0#32 → m' = m := by
    rintro rfl
    exact Except.ok.inj (h.symm.trans (Memory.loadProgram_zero m))
  refine ⟨m', h, Memory.len?_congr (Memory.loadProgram_seg?_zero h), Memory.loadProgram_read_zero h,
    fun j off hj => Memory.read_congr (Memory.loadProgram_seg?_ne h hj) off, Memory.loadProgram_mapped h, hself,
    fun hid off v n hw o => Memory.write_read_ne hw ?_, fun hid off v n hw o => Memory.write_read_ne hw ?_⟩
  · exact fun e => hid (congrArg Prod.fst e).symm
  · exact fun e => hid (congrArg Prod.fst e)

/-! ## What an instruction does to the memory -/

/-- Alloc maps a segment of zeros under the identifier it returns and leaves the rest of the memory (R58). -/
theorem State.alloc_mem {s u : State} {n id : Word} (h : s.alloc n = .ok (id, u)) :
    u.mem = s.mem.setSeg id (Segment.zeros n) := by
  obtain ⟨-, -, rfl⟩ | ⟨book, -, -, rfl⟩ := State.allocWithDraw_eq_ok h <;> rfl

theorem State.free_mem {s u : State} {id : Word} (h : s.free id = .ok u) : s.mem.free id = .ok u.mem := by
  obtain ⟨m, hm, ⟨-, rfl⟩ | ⟨-, rfl⟩⟩ := State.free_eq_ok h <;> exact hm

/-- Everything an instruction can do to the memory: four of the fourteen change it, each by its one operation. -/
theorem Effect.mem_cases {s t : State} {i : Instr} (h : Effect s i t) :
    t.mem = s.mem ∨
    (∃ a b c, i = .sstore a b c ∧ s.mem.write (s.x a) (s.x b) (s.x c) = .ok t.mem) ∨
    (∃ b c, i = .map b c ∧ t.mem = s.mem.setSeg (t.x b) (Segment.zeros (s.x c))) ∨
    (∃ c, i = .unmap c ∧ s.mem.free (s.x c) = .ok t.mem) ∨
    (∃ b c, i = .loadp b c ∧ s.mem.loadProgram (s.x b) = .ok t.mem) := by
  cases h with
  | sstore a b c m hw => exact .inr (.inl ⟨a, b, c, rfl, hw⟩)
  | map b c id u ha => exact .inr (.inr (.inl ⟨b, c, rfl, by simp [State.alloc_mem ha]⟩))
  | unmap c u hf => exact .inr (.inr (.inr (.inl ⟨c, rfl, State.free_mem (u := u) hf⟩)))
  | loadp b c m hl => exact .inr (.inr (.inr (.inr ⟨b, c, rfl, hl⟩)))
  | _ => exact .inl rfl

/-- Everything an instruction can do to `mapped(id)` (R51): a MAP that returns `id` makes it true, an UNMAP of `id`
makes it false, and it is as before otherwise. -/
theorem Effect.mapped_cases {s t : State} {i : Instr} (h : Effect s i t) (id : Word) :
    t.mem.mapped id = s.mem.mapped id ∨
    (∃ b c, i = .map b c ∧ t.x b = id ∧ t.mem.mapped id = true) ∨
    (∃ c, i = .unmap c ∧ s.x c = id ∧ t.mem.mapped id = false) := by
  obtain hkeep | ⟨a, b, c, -, hw⟩ | ⟨b, c, hi, hmap⟩ | ⟨c, hi, hf⟩ | ⟨b, c, -, hl⟩ := h.mem_cases
  · exact .inl (by rw [hkeep])
  · exact .inl (Memory.write_mapped hw id)
  · by_cases hid : id = t.x b
    · exact .inr (.inl ⟨b, c, hi, hid.symm, by rw [hmap, hid, Memory.setSeg_mapped_self]⟩)
    · exact .inl (Memory.mapped_congr (by rw [hmap, Memory.setSeg_seg?_ne _ _ hid]))
  · by_cases hid : id = s.x c
    · subst hid
      exact .inr (.inr ⟨c, hi, rfl, (Memory.mapped_eq_false_iff ..).2 (Memory.free_seg?_self hf)⟩)
    · exact .inl (Memory.mapped_congr (Memory.free_seg?_ne hf hid))
  · exact .inl (Memory.loadProgram_mapped hl id)

/-- Only segment 0 is mapped right after reset (10_state.md R45): reset is the loaded state of the empty program. -/
theorem State.reset_mapped_iff (id : Word) : State.reset.mem.mapped id = true ↔ id = 0#32 :=
  State.loaded_mapped_iff Config.default [] [] true id

/-- Settles O44: read off the cases of `mapped(id)`, of which only one changes it in each direction. -/
theorem onlyMapAndUnmapChangeTheMapping : Obligations.OnlyMapAndUnmapChangeTheMapping := by
  refine ⟨State.reset_mapped_iff, fun i s t id h => ?_⟩
  obtain hkeep | ⟨b, c, hi, hx, hon⟩ | ⟨c, hi, hx, hoff⟩ := (effect_of_exec h).mapped_cases id
  · simp +contextual [hkeep]
  · exact ⟨fun _ _ => ⟨b, c, hi, hx⟩, by simp [hon]⟩
  · exact ⟨by simp [hoff], fun _ _ => ⟨c, hi, hx⟩⟩

end Sys2Proof.Machine
end

section
/-! SUPPORT. The laws of the decoder's fields (30_encoding.md R92, R93, R95) and of the instruction a word is, read off
those fields (R98, R100). -/

namespace Sys2Proof

/-! ## Fields and their masks -/

/-- The bits of the field at offset `lsb` of width `width`, as R93 masks them. -/
def fieldMask (lsb width : Nat) : Nat := (2 ^ width - 1) <<< lsb

theorem fieldOf_eq_shiftRight_mod (w : Word) (lsb width : Nat) :
    fieldOf w lsb width = (w.toNat >>> lsb) % 2 ^ width := by
  rw [fieldOf, Nat.shiftRight_eq_div_pow]

/-- A field that reaches bit 31 is the plain shift: a word has no bit above it. -/
theorem fieldOf_of_reaches_top (w : Word) {lsb width : Nat} (h : 32 ≤ lsb + width) :
    fieldOf w lsb width = w.toNat >>> lsb := by
  rw [fieldOf_eq_shiftRight_mod, Nat.shiftRight_eq_div_pow]
  refine Nat.mod_eq_of_lt (Nat.div_lt_of_lt_mul ?_)
  calc w.toNat < 2 ^ 32 := w.isLt
    _ ≤ 2 ^ (lsb + width) := Nat.pow_le_pow_right (by decide) h
    _ = 2 ^ lsb * 2 ^ width := Nat.pow_add ..

/-- Masking in place and then shifting is shifting and then masking at offset 0 (R93). -/
theorem extractField_eq_fieldOf (w : Word) (lsb width : Nat) : extractField w lsb width = fieldOf w lsb width := by
  rw [extractField, Nat.shiftRight_and_distrib, Nat.shiftLeft_shiftRight, Nat.and_two_pow_sub_one_eq_mod,
    fieldOf_eq_shiftRight_mod]

theorem fieldOf_width_zero (w : Word) (lsb : Nat) : fieldOf w lsb 0 = 0 := Nat.mod_one _

/-- A field put back at its offset is the word with the other bits cleared. -/
theorem fieldOf_shiftLeft (w : Word) (lsb width : Nat) :
    fieldOf w lsb width <<< lsb = w.toNat &&& fieldMask lsb width := by
  refine Nat.eq_of_testBit_eq fun k => ?_
  rw [fieldOf_eq_shiftRight_mod, fieldMask]
  by_cases hk : lsb ≤ k
  · simp [hk, Bool.and_comm]
  · simp [hk]

/-- Words that agree on a set `m` of bits agree on every field inside it. -/
theorem fieldOf_congr {w v m : Word} {lsb width : Nat} (h : w &&& m = v &&& m)
    (hm : m.toNat &&& fieldMask lsb width = fieldMask lsb width) : fieldOf w lsb width = fieldOf v lsb width := by
  have key : w.toNat &&& fieldMask lsb width = v.toNat &&& fieldMask lsb width := by
    rw [← hm, ← Nat.and_assoc, ← Nat.and_assoc, ← BitVec.toNat_and, ← BitVec.toNat_and, h]
  calc fieldOf w lsb width = extractField w lsb width := (extractField_eq_fieldOf w lsb width).symm
    _ = extractField v lsb width := congrArg (· >>> lsb) key
    _ = fieldOf v lsb width := extractField_eq_fieldOf v lsb width

theorem regField_congr {w v m : Word} {lsb : Nat} (h : w &&& m = v &&& m)
    (hm : m.toNat &&& fieldMask lsb 3 = fieldMask lsb 3) : regField w lsb = regField v lsb :=
  Fin.ext (fieldOf_congr h hm)

/-! ## The obligations about the fields -/

/-- Settles O5: each field is the shifted word modulo `2^W`, and the opcode, which ends at bit 31, needs no modulus. -/
theorem decoderCutsSixUnsignedFields : Obligations.DecoderCutsSixUnsignedFields := fun w =>
  ⟨fieldOf_of_reaches_top w (by decide), fieldOf_eq_shiftRight_mod w 6 3, fieldOf_eq_shiftRight_mod w 3 3,
    fieldOf_eq_shiftRight_mod w 0 3, fieldOf_eq_shiftRight_mod w 25 3, fieldOf_eq_shiftRight_mod w 0 25⟩

/-- Settles O7: the contract gives the decoder's field, and a number modulo `2^0` is 0. -/
theorem generalFieldExtraction : Obligations.GeneralFieldExtraction := fun w lsb width =>
  ⟨extractField_eq_fieldOf w lsb width, (extractField_eq_fieldOf w lsb 0).trans (fieldOf_width_zero w lsb)⟩

/-- The three-register fields at their offsets make up the bits of `0xF00001FF`. -/
theorem threeReg_fields_reassemble (w : Word) :
    fieldOf w 28 4 <<< 28 ||| fieldOf w 6 3 <<< 6 ||| fieldOf w 3 3 <<< 3 ||| fieldOf w 0 3 =
      w.toNat &&& 0xF00001FF := by
  have hc : fieldOf w 0 3 = w.toNat &&& fieldMask 0 3 := fieldOf_shiftLeft w 0 3
  have hmask : fieldMask 28 4 ||| fieldMask 6 3 ||| fieldMask 3 3 ||| fieldMask 0 3 = 0xF00001FF := by decide
  simp only [fieldOf_shiftLeft, hc, ← Nat.and_or_distrib_left, hmask]

/-- The fields of the immediate format leave out no bit of the word. -/
theorem immediate_fields_reassemble (w : Word) :
    fieldOf w 28 4 <<< 28 ||| fieldOf w 25 3 <<< 25 ||| fieldOf w 0 25 = w.toNat := by
  have hv : fieldOf w 0 25 = w.toNat &&& fieldMask 0 25 := fieldOf_shiftLeft w 0 25
  have hmask : fieldMask 28 4 ||| fieldMask 25 3 ||| fieldMask 0 25 = 2 ^ 32 - 1 := by decide
  simp only [fieldOf_shiftLeft, hv, ← Nat.and_or_distrib_left, hmask, Nat.and_two_pow_sub_one_eq_mod]
  exact Nat.mod_eq_of_lt w.isLt

/-- Settles O6: each field put back is the word under its mask, and the masks together are the bits of the format. -/
theorem fieldsReassembleTheWord : Obligations.FieldsReassembleTheWord := fun w =>
  ⟨threeReg_fields_reassemble w, immediate_fields_reassemble w⟩

/-! ## The instruction a word is -/

/-- The operands of the instruction stand in the word's fields (tables R90, R91). -/
def Instr.OperandsIn (w : Word) : Instr → Prop
  | .cmov a b c | .sload a b c | .sstore a b c | .add a b c | .mul a b c | .div a b c | .nand a b c =>
    regField w 6 = a ∧ regField w 3 = b ∧ regField w 0 = c
  | .halt => True
  | .map b c | .loadp b c => regField w 3 = b ∧ regField w 0 = c
  | .unmap c | .out c | .inp c => regField w 0 = c
  | .loadv rl imm => regField w 25 = rl ∧ BitVec.ofNat 32 (fieldOf w 0 25) = imm

/-- A word is the instruction whose opcode and operands stand in its fields (R98), and no other. -/
theorem decode_eq_ok_iff (w : Word) (i : Instr) :
    decode w = .ok i ↔ fieldOf w 28 4 = i.opcode ∧ i.OperandsIn w := by
  constructor
  · intro h
    obtain ⟨hop, hd⟩ | ⟨hop, hd⟩ | ⟨hop, hd⟩ | ⟨hop, hd⟩ | ⟨hop, hd⟩ | ⟨hop, hd⟩ | ⟨hop, hd⟩ | ⟨hop, hd⟩ | ⟨hop, hd⟩ |
      ⟨hop, hd⟩ | ⟨hop, hd⟩ | ⟨hop, hd⟩ | ⟨hop, hd⟩ | ⟨hop, hd⟩ | ⟨hop, hd⟩ := decode_cases w <;>
      cases hd.symm.trans h <;> exact ⟨hop, by simp [Instr.OperandsIn]⟩
  · rintro ⟨hop, hargs⟩
    cases i <;> simp_all [decode, decodeFields, Instr.opcode, Instr.OperandsIn]

/-- Every instruction uses the four bits of the opcode. -/
theorem Instr.usedBits_opcode (i : Instr) : i.usedBits.toNat &&& fieldMask 28 4 = fieldMask 28 4 := by
  cases i <;> simp only [Instr.usedBits] <;> decide

/-- An instruction's operands depend on the bits it uses alone. -/
theorem Instr.operandsIn_congr {w v : Word} {i : Instr} (h : w &&& i.usedBits = v &&& i.usedBits) :
    i.OperandsIn w ↔ i.OperandsIn v := by
  cases i with
  | cmov | sload | sstore | add | mul | div | nand =>
    simp only [Instr.usedBits] at h
    simp only [Instr.OperandsIn, regField_congr (lsb := 6) h (by decide), regField_congr (lsb := 3) h (by decide),
      regField_congr (lsb := 0) h (by decide)]
  | halt => exact Iff.rfl
  | map | loadp =>
    simp only [Instr.usedBits] at h
    simp only [Instr.OperandsIn, regField_congr (lsb := 3) h (by decide), regField_congr (lsb := 0) h (by decide)]
  | unmap | out | inp =>
    simp only [Instr.usedBits] at h
    simp only [Instr.OperandsIn, regField_congr (lsb := 0) h (by decide)]
  | loadv =>
    simp only [Instr.usedBits] at h
    simp only [Instr.OperandsIn, regField_congr (lsb := 25) h (by decide),
      fieldOf_congr (lsb := 0) (width := 25) h (by decide)]

/-- Settles O9: the opcode and the operands stand in fields the instruction uses. -/
theorem unusedBitsAreIgnored : Obligations.UnusedBitsAreIgnored := by
  intro w v i hw h
  obtain ⟨hop, hargs⟩ := (decode_eq_ok_iff w i).1 hw
  have hop' : fieldOf v 28 4 = i.opcode := (fieldOf_congr h i.usedBits_opcode).symm.trans hop
  exact (decode_eq_ok_iff v i).2 ⟨hop', (Instr.operandsIn_congr h).1 hargs⟩

end Sys2Proof
end

section
/-! SUPPORT. The end-of-program check before a fetch (40_execution_cycle.md R121). -/

namespace Sys2Proof.Machine

/-- Settles O35: the laws of the implicit halt, of the fetch fault and of the fetched word. -/
theorem endOfProgramIsCheckedBeforeFetch : Obligations.EndOfProgramIsCheckedBeforeFetch := fun s hrun =>
  ⟨step_endOfProgram hrun, step_fetchFault hrun, fun hlt => ⟨s.fetchWord, State.read_pc hlt⟩⟩

end Sys2Proof.Machine
end

section
/-! SUPPORT. The frame of an instruction that works on registers alone, and CMOV (41_conditional_move.md R141). -/

namespace Sys2Proof.Machine

/-! ## The register frame -/

theorem State.registerFrame_refl (s : State) (dest : List Reg) : s.RegisterFrame s dest :=
  ⟨fun _ _ => rfl, rfl, fun _ _ => rfl, ⟨rfl, rfl⟩, ⟨rfl, rfl⟩, rfl⟩

theorem State.registerFrame_setX (s : State) (a : Reg) (v : Word) : s.RegisterFrame (s.setX a v) [a] :=
  ⟨fun _ hr => s.setX_x_ne v (List.ne_of_not_mem_cons hr), rfl, fun _ _ => rfl, ⟨rfl, rfl⟩, ⟨rfl, rfl⟩, rfl⟩

/-- The frame does not speak of the pc. -/
theorem State.RegisterFrame.advance {s t : State} {dest : List Reg} (h : s.RegisterFrame t dest) :
    s.RegisterFrame t.advance dest := h

/-! ## CMOV -/

/-- Settles O13: the opcode field alone makes the word a CMOV, and on either side of the condition the next state is the
one `Effect` lists. -/
theorem cmovMovesWhenTheConditionIsNotZero : Obligations.CmovMovesWhenTheConditionIsNotZero := by
  refine ⟨fun w hop => (decode_eq_ok_iff w _).2 ⟨hop, rfl, rfl, rfl⟩, fun a b c s => ?_⟩
  by_cases h : s.x c = 0#32
  · exact ⟨s.advance, exec_of_effect (.cmovSkipped a b c h), fun hne => absurd h hne, fun _ => s.advance_x a,
      s.advance_pc, (s.registerFrame_refl [a]).advance⟩
  · exact ⟨(s.setX a (s.x b)).advance, exec_of_effect (.cmovTaken a b c h), fun _ => s.setX_x_self a (s.x b),
      fun h0 => absurd h0 h, rfl, (s.registerFrame_setX a (s.x b)).advance⟩

end Sys2Proof.Machine
end

section
/-! SUPPORT. SLOAD and SSTORE (42_segmented_load_store.md R146, R147), from what MemRead and MemWrite answer. -/

namespace Sys2Proof.Machine

/-! ## The faults of MemWrite, and of MemRead past a segment's end -/

theorem Memory.read_of_seg?_len_le {m : Memory} {id off : Word} {g : Segment} (hg : m.seg? id = some g)
    (h : g.len ≤ off) : m.read id off = .error .outOfBoundsOffset :=
  Memory.read_of_len_le ((Memory.len?_eq_some_iff m id g.len).2 ⟨g, hg, rfl⟩) h

theorem Memory.write_of_unmapped {m : Memory} {id : Word} (h : m.mapped id = false) (off v : Word) :
    m.write id off v = .error .unmappedSegmentAccess :=
  (Memory.write_eq_error_iff m id off v _).2 (Memory.read_of_unmapped h off)

theorem Memory.write_of_seg?_len_le {m : Memory} {id off : Word} {g : Segment} (hg : m.seg? id = some g)
    (h : g.len ≤ off) (v : Word) : m.write id off v = .error .outOfBoundsOffset :=
  (Memory.write_eq_error_iff m id off v _).2 (Memory.read_of_seg?_len_le hg h)

/-! ## SSTORE -/

/-- Settles O15: SSTORE ends as MemWrite at its address does, and a write that succeeds changes the one word. -/
theorem sstoreWritesOneWordOrFaults : Obligations.SstoreWritesOneWordOrFaults := by
  refine ⟨fun w hop => (decode_eq_ok_iff w _).2 ⟨hop, rfl, rfl, rfl⟩, ?_⟩
  rintro a b c s _ _ ⟨⟩
  refine ⟨fun g hg hlt => ?_, fun hun => ?_, fun g hg hle => ?_⟩
  · have hw := Memory.write_of_lt_len hg hlt (s.x c)
    exact ⟨_, exec_of_effect (.sstore a b c _ hw), Memory.write_read_self hw, fun j o => Memory.write_read_ne hw,
      rfl, fun _ _ => rfl, rfl, ⟨rfl, rfl⟩, ⟨rfl, rfl⟩, rfl⟩
  · exact exec_of_effect (.sstoreFault a b c _ (Memory.write_of_unmapped hun _ _))
  · exact exec_of_effect (.sstoreFault a b c _ (Memory.write_of_seg?_len_le hg hle _))

/-! ## SLOAD -/

/-- Settles O14: SLOAD ends as MemRead at its address does, and a word read changes the destination register alone. -/
theorem sloadReadsAWordOrFaults : Obligations.SloadReadsAWordOrFaults := by
  refine ⟨fun w hop => (decode_eq_ok_iff w _).2 ⟨hop, rfl, rfl, rfl⟩, fun a b c s => ?_⟩
  refine ⟨fun g hg hlt => ?_, fun hun => ?_, fun g hg hle => ?_⟩
  · have hr := Memory.read_of_lt_len hg hlt
    exact ⟨_, exec_of_effect (.sload a b c _ hr), s.setX_x_self a _, rfl, (s.registerFrame_setX a _).advance⟩
  · exact exec_of_effect (.sloadFault a b c _ (Memory.read_of_unmapped hun _))
  · exact exec_of_effect (.sloadFault a b c _ (Memory.read_of_seg?_len_le hg hle))

end Sys2Proof.Machine
end

section
/-! SUPPORT. The ALU: ADD, MUL, DIV and NAND (43_alu.md R156 to R159), and the identities that follow from what their
functions compute (R160). -/

namespace Sys2Proof.Machine

/-! ## What the four functions compute -/

theorem aluAdd_toNat (u v : Word) : (aluAdd u v).toNat = (u.toNat + v.toNat) % 2 ^ 32 := BitVec.toNat_add u v

theorem aluMul_toNat (u v : Word) : (aluMul u v).toNat = (u.toNat * v.toNat) % 2 ^ 32 := BitVec.toNat_mul u v

theorem aluDiv_toNat (u v : Word) : (aluDiv u v).toNat = u.toNat / v.toNat := BitVec.toNat_udiv

theorem aluNand_toNat (u v : Word) : (aluNand u v).toNat = 0xFFFFFFFF - (u &&& v).toNat := BitVec.toNat_not

theorem aluNand_getLsbD (u v : Word) {i : Nat} (h : i < 32) :
    (aluNand u v).getLsbD i = !(u.getLsbD i && v.getLsbD i) := by
  simp [aluNand, h]

/-- The two inequalities that make `aluDiv u v` the quotient (R158). -/
theorem aluDiv_bounds (u : Word) {v : Word} (h : v ≠ 0#32) :
    (aluDiv u v).toNat * v.toNat ≤ u.toNat ∧ u.toNat < ((aluDiv u v).toNat + 1) * v.toNat := by
  have hpos : 0 < v.toNat := Nat.pos_of_ne_zero (BitVec.toNat_ne_iff_ne.2 h)
  rw [aluDiv_toNat]
  exact ⟨Nat.div_mul_le_self .., (Nat.div_lt_iff_lt_mul hpos).1 (Nat.lt_succ_self _)⟩

/-! ## NOT, AND, OR, negation and the remainder, from the four functions (R160) -/

theorem aluNand_self (v : Word) : aluNand v v = ~~~v := congrArg (~~~ ·) BitVec.and_self

theorem aluNand_aluNand_eq_and (v u : Word) : aluNand (aluNand v u) (aluNand v u) = v &&& u :=
  (aluNand_self _).trans BitVec.not_not

/-- De Morgan. -/
theorem aluNand_not_not_eq_or (v u : Word) : aluNand (~~~v) (~~~u) = v ||| u := by
  rw [aluNand, BitVec.not_and, BitVec.not_not, BitVec.not_not]

theorem aluAdd_not_one (v : Word) : aluAdd (~~~v) 1#32 = -v := (BitVec.neg_eq_not_add v).symm

theorem aluAdd_aluAdd_not_one (v u : Word) : aluAdd (aluAdd v (~~~u)) 1#32 = v - u :=
  calc v + ~~~u + 1#32 = v + (~~~u + 1#32) := BitVec.add_assoc ..
    _ = v + -u := congrArg (v + ·) (aluAdd_not_one u)
    _ = v - u := (BitVec.sub_eq_add_neg v u).symm

/-- Quotient and remainder make up the dividend; for `u = 0` both sides are `v`. -/
theorem sub_aluMul_aluDiv (v u : Word) : v - aluMul (aluDiv v u) u = v % u := by
  refine sub_eq_of_eq_add (BitVec.eq_of_toNat_eq ?_)
  rw [BitVec.toNat_add, aluMul_toNat, aluDiv_toNat, BitVec.toNat_umod, Nat.add_mod_mod, Nat.mod_add_div',
    Nat.mod_eq_of_lt v.isLt]

/-! ## Shifts (R160) -/

theorem toNat_ofNat_two_pow {k : Nat} (h : k ≤ 31) : (BitVec.ofNat 32 (2 ^ k)).toNat = 2 ^ k := by
  rw [BitVec.toNat_ofNat, Nat.mod_eq_of_lt (Nat.pow_lt_pow_right (by decide) (Nat.lt_succ_of_le h))]

theorem aluMul_two_pow (v : Word) {k : Nat} (h : k ≤ 31) : aluMul v (BitVec.ofNat 32 (2 ^ k)) = v <<< k := by
  apply BitVec.eq_of_toNat_eq
  rw [aluMul_toNat, toNat_ofNat_two_pow h, BitVec.toNat_shiftLeft, Nat.shiftLeft_eq]

theorem aluDiv_two_pow (v : Word) {k : Nat} (h : k ≤ 31) : aluDiv v (BitVec.ofNat 32 (2 ^ k)) = v >>> k := by
  apply BitVec.eq_of_toNat_eq
  rw [aluDiv_toNat, toNat_ofNat_two_pow h, BitVec.toNat_ushiftRight, Nat.shiftRight_eq_div_pow]

/-- Settles O54: NAND of a word with itself is its NOT, and with that each identity is one of the laws above. -/
theorem aluIdentitiesHold : Obligations.AluIdentitiesHold := by
  intro u v
  rw [aluNand_self v, aluNand_self u, aluAdd_not_one v]
  exact ⟨rfl, aluNand_aluNand_eq_and v u, aluNand_not_not_eq_or v u, rfl, BitVec.add_right_neg v,
    aluAdd_aluAdd_not_one v u, (BitVec.sub_eq_add_neg v 1#32).symm, fun _ => sub_aluMul_aluDiv v u,
    fun _ hk => ⟨aluMul_two_pow v hk, aluDiv_two_pow v hk⟩⟩

/-! ## The instructions -/

/-- An instruction that ends by writing `v` to register `a` and going on to the next word does that and no more. -/
theorem exec_of_setX_effect {i : Instr} {s : State} {a : Reg} {v : Word} (h : Effect s i (s.setX a v).advance) :
    ∃ t, exec i s = .next t ∧ t.x a = v ∧ t.pc = s.pc + 1#32 ∧ s.RegisterFrame t [a] :=
  ⟨_, exec_of_effect h, s.setX_x_self a v, rfl, (s.registerFrame_setX a v).advance⟩

/-- Settles O16: ADD ends by writing `aluAdd` of the two sources. -/
theorem addWrapsModulo32Bits : Obligations.AddWrapsModulo32Bits := by
  refine ⟨fun w hop => (decode_eq_ok_iff w _).2 ⟨hop, rfl, rfl, rfl⟩, fun a b c s => ?_⟩
  obtain ⟨t, ht, hx, hrest⟩ := exec_of_setX_effect (.add (s := s) a b c)
  exact ⟨t, ht, hx ▸ aluAdd_toNat .., hrest⟩

/-- Settles O17: MUL ends by writing `aluMul` of the two sources. -/
theorem mulWrapsModulo32Bits : Obligations.MulWrapsModulo32Bits := by
  refine ⟨fun w hop => (decode_eq_ok_iff w _).2 ⟨hop, rfl, rfl, rfl⟩, fun a b c s => ?_⟩
  obtain ⟨t, ht, hx, hrest⟩ := exec_of_setX_effect (.mul (s := s) a b c)
  exact ⟨t, ht, hx ▸ aluMul_toNat .., hrest⟩

/-- Settles O18: the divisor alone decides between the quotient and the fault. -/
theorem divGivesTheUnsignedQuotientOrFaults : Obligations.DivGivesTheUnsignedQuotientOrFaults := by
  refine ⟨fun w hop => (decode_eq_ok_iff w _).2 ⟨hop, rfl, rfl, rfl⟩, fun a b c s => ⟨fun h => ?_, fun h => ?_⟩⟩
  · obtain ⟨t, ht, hx, hrest⟩ := exec_of_setX_effect (.div a b c h)
    obtain ⟨hle, hlt⟩ := aluDiv_bounds (s.x b) h
    exact ⟨t, ht, hx ▸ hle, hx ▸ hlt, hrest⟩
  · exact exec_of_effect (.divFault a b c h)

/-- Settles O19: NAND ends by writing `aluNand` of the two sources, known bit by bit and as a number. -/
theorem nandComplementsTheConjunction : Obligations.NandComplementsTheConjunction := by
  refine ⟨fun w hop => (decode_eq_ok_iff w _).2 ⟨hop, rfl, rfl, rfl⟩, fun a b c s => ?_⟩
  obtain ⟨t, ht, hx, hrest⟩ := exec_of_setX_effect (.nand (s := s) a b c)
  exact ⟨t, ht, fun i hi => hx ▸ aluNand_getLsbD _ _ hi, hx ▸ aluNand_toNat .., hrest⟩

end Sys2Proof.Machine
end

section
/-! SUPPORT. HALT (44_halt.md R171), and that no step is taken from the state it leaves. -/

namespace Sys2Proof.Machine

/-- A step is taken from a running state only (R28). -/
theorem step_ne_next_of_not_running {s : State} (hr : s.run ≠ .running) (t : State) : step s ≠ .next t := fun h =>
  hr (step_eq_next h).1

/-- Settles O20: the opcode field alone makes the word a HALT, its one effect is the halted state, and that state is not
running. -/
theorem haltEndsTheRunInPlace : Obligations.HaltEndsTheRunInPlace := by
  refine ⟨fun w hop => (decode_eq_ok_iff w .halt).2 ⟨hop, trivial⟩, fun s => ⟨exec_of_effect .halt, ?_⟩⟩
  have hnot : s.halt.run ≠ .running := by simp
  exact step_ne_next_of_not_running hnot

end Sys2Proof.Machine
end

section
/-! SUPPORT. Free (20_memory.md R59, R60) and UNMAP (45_segment_management.md R178). -/

namespace Sys2Proof.Machine

/-! ## What Free does to the memory map -/

@[simp] theorem Memory.free_zero (m : Memory) : m.free 0#32 = .error .freeOfSegmentZero := rfl

theorem Memory.free_of_unmapped {m : Memory} {id : Word} (hid : id ≠ 0#32) (h : m.mapped id = false) :
    m.free id = .error .unmappedSegmentAccess := by
  simp [Memory.free, hid, h]

theorem Memory.free_of_mapped {m : Memory} {id : Word} (hid : id ≠ 0#32) (h : m.mapped id = true) :
    ∃ m', m.free id = .ok m' := by
  simp [Memory.free, hid, h]

theorem Memory.free_mapped_self {m m' : Memory} {id : Word} (h : m.free id = .ok m') : m'.mapped id = false :=
  (Memory.mapped_eq_false_iff m' id).2 (Memory.free_seg?_self h)

/-! ## What Free does to the state -/

/-- The bookkeeping after `id` is freed: pushed on `freed` under `lifo` (R59), as it was under `any` (R34). -/
def Allocator.release (book : Allocator) (policy : AllocPolicy) (id : Word) : Allocator :=
  match policy with
  | .any => book
  | .lifo => { book with freed := id :: book.freed }

@[simp] theorem Allocator.release_used (book : Allocator) (policy : AllocPolicy) (id : Word) :
    (book.release policy id).used = book.used := by
  cases policy <;> rfl

@[simp] theorem Allocator.release_any (book : Allocator) (id : Word) : book.release .any id = book := rfl

@[simp] theorem Allocator.release_lifo_freed (book : Allocator) (id : Word) :
    (book.release .lifo id).freed = id :: book.freed := rfl

/-- Free faults as its memory part does. -/
theorem State.free_of_mem_error {s : State} {id : Word} {k : FaultKind} (h : s.mem.free id = .error k) :
    s.free id = .error k := by
  simp [State.free, h]

/-- Free changes the memory map and the bookkeeping alone. -/
theorem State.free_of_mem_ok {s : State} {id : Word} {m : Memory} (h : s.mem.free id = .ok m) :
    s.free id = .ok { s with mem := m, allocator := s.allocator.release s.cfg.allocPolicy id } := by
  cases hp : s.cfg.allocPolicy <;> simp [State.free, h, hp, Allocator.release]

/-! ## The freed identifier can be handed out again (R58) -/

theorem State.IdsInSpace.idInSpace_of_mapped {s : State} (h : s.IdsInSpace) {id : Word} (hid : id ≠ 0#32)
    (hm : s.mem.mapped id = true) : idInSpace s.cfg.idSpace id.toNat = true := by
  obtain ⟨g, hg⟩ := (Memory.mapped_eq_true_iff s.mem id).1 hm
  rw [Memory.seg?_ne_zero s.mem hid] at hg
  exact h _ (Cells.mem_of_find? hg)

theorem State.allocatable_of_unmapped {s : State} {id : Word} (hsp : idInSpace s.cfg.idSpace id.toNat = true)
    (hm : s.mem.mapped id = false) : s.allocatable id = true := by
  simp [State.allocatable, hsp, hm]

/-! ## UNMAP -/

/-- Settles O22: UNMAP ends as Free of its operand does, and a Free that succeeds takes the one segment away. -/
theorem unmapFreesTheSegmentOrFaults : Obligations.UnmapFreesTheSegmentOrFaults := by
  refine ⟨fun w hop => (decode_eq_ok_iff w _).2 ⟨hop, rfl⟩, fun c s => ?_⟩
  refine ⟨fun hid hm => ?_, fun h0 => ?_, fun hid hun => ?_⟩
  · obtain ⟨m, hf⟩ := Memory.free_of_mapped hid hm
    have hgone : m.mapped (s.x c) = false := Memory.free_mapped_self hf
    exact ⟨_, exec_of_effect (.unmap c _ (State.free_of_mem_ok hf)), hgone,
      fun j off hj => Memory.read_congr (Memory.free_seg?_ne hf hj) off,
      fun hsp => State.allocatable_of_unmapped (hsp.idInSpace_of_mapped hid hm) hgone,
      rfl, fun _ _ => rfl, rfl, ⟨rfl, rfl⟩, rfl, rfl, Allocator.release_used .., fun hp => by simp [hp],
      fun hp => by simp [hp]⟩
  · exact exec_of_effect (.unmapFault c _ (State.free_of_mem_error (by rw [h0, Memory.free_zero])))
  · exact exec_of_effect (.unmapFault c _ (State.free_of_mem_error (Memory.free_of_unmapped hid hun)))

end Sys2Proof.Machine
end

section
/-! SUPPORT. OUT and IN (46_io.md R187, R190, R192). -/

namespace Sys2Proof.Machine

/-! ## The byte of a register and the word of a byte -/

theorem zextByte_toNat (b : Byte) : (zextByte b).toNat = b.toNat := BitVec.toNat_setWidth_of_le (by decide)

/-- The low byte of a word that fits in one is the whole value. -/
theorem lowByte_toNat {v : Word} (h : v.toNat ≤ 255) : (lowByte v).toNat = v.toNat := by
  rw [lowByte, BitVec.toNat_setWidth, Nat.mod_eq_of_lt (Nat.lt_succ_of_le h)]

/-! ## OUT -/

/-- Settles O23: the bound on the register alone decides between the byte and the fault. -/
theorem outEmitsOneByteOrFaults : Obligations.OutEmitsOneByteOrFaults := by
  refine ⟨fun w hop => (decode_eq_ok_iff w _).2 ⟨hop, rfl⟩, fun c s => ⟨fun h => ?_, fun h => ?_⟩⟩
  · exact ⟨_, _, exec_of_effect (.out c (BitVec.not_lt.2 h)), rfl, lowByte_toNat h, rfl, fun _ _ => rfl, rfl,
      fun _ _ => rfl, ⟨rfl, rfl⟩, rfl, rfl⟩
  · exact exec_of_effect (.outFault c h)

/-! ## IN -/

/-- An IN that ends by writing `v` to its register and going on with the input stream `i` does that and no more. -/
theorem exec_of_setX_withInput_effect {s : State} {c : Reg} {v : Word} {i : InputStream}
    (h : Effect s (.inp c) ((s.setX c v).withInput i).advance) :
    ∃ t, exec (.inp c) s = .next t ∧ t.x c = v ∧ t.input = i ∧ t.pc = s.pc + 1#32 ∧ s.SameRegsBut t [c] ∧
      t.run = s.run ∧ s.SameMem t ∧ s.SameAllocator t ∧ t.output = s.output ∧ t.cfg = s.cfg := by
  obtain ⟨hregs, hrun, hmem, halloc, ⟨_, hout⟩, hcfg⟩ := s.registerFrame_setX c v
  exact ⟨_, exec_of_effect h, s.setX_x_self c v, rfl, rfl, hregs, hrun, hmem, halloc, hout, hcfg⟩

/-- Settles O24: what the device answers, and at the end of input the policy, decide how IN ends. -/
theorem inTakesTheNextByteOrSeesTheEnd : Obligations.InTakesTheNextByteOrSeesTheEnd := by
  refine ⟨fun w hop => (decode_eq_ok_iff w _).2 ⟨hop, rfl⟩, fun c s => ⟨fun byte hsig hbyte => ?_, fun hend => ?_⟩⟩
  · obtain ⟨t, ht, hx, hrest⟩ :=
      exec_of_setX_withInput_effect (.inByte c byte (InputStream.poll_byte hsig hbyte))
    exact ⟨t, ht, hx ▸ zextByte_toNat byte, hrest⟩
  · have hpoll : s.input.poll = .eof :=
      hend.elim InputStream.poll_eofSeen fun ⟨hnone, hclosed⟩ => InputStream.poll_end hnone hclosed
    exact ⟨fun hp => exec_of_setX_withInput_effect (.inEof c hpoll hp),
      fun hp => exec_of_effect (.inFault c hpoll hp)⟩

end Sys2Proof.Machine
end

section
/-! SUPPORT. LOADP (47_load_program.md R201). -/

namespace Sys2Proof.Machine

/-- The new length of segment 0 is that of the segment it was copied from (R62, R63). -/
theorem Memory.loadProgram_progLen {m m' : Memory} {id : Word} (h : m.loadProgram id = .ok m') :
    some m'.progLen = m.len? id :=
  Memory.len?_congr (Memory.loadProgram_seg?_zero h)

/-- A load of segment 0 that succeeds leaves the memory as it was. -/
theorem Memory.eq_of_loadProgram_zero {m m' : Memory} (h : m.loadProgram 0#32 = .ok m') : m' = m :=
  Except.ok.inj (h.symm.trans (Memory.loadProgram_zero m))

/-- Settles O25: LOADP ends as LoadProgram of its first operand does, and a load that succeeds replaces segment 0 alone. -/
theorem loadpReplacesTheProgramAndJumps : Obligations.LoadpReplacesTheProgramAndJumps := by
  refine ⟨fun w hop => (decode_eq_ok_iff w _).2 ⟨hop, rfl, rfl⟩, fun b c s => ⟨fun hm => ?_, fun hun => ?_⟩⟩
  · obtain ⟨m, hl⟩ := Memory.loadProgram_of_mapped hm
    exact ⟨_, exec_of_effect (.loadp b c m hl), rfl, Memory.loadProgram_progLen hl, Memory.loadProgram_read_zero hl,
      fun j off hj => Memory.read_congr (Memory.loadProgram_seg?_ne hl hj) off,
      fun h0 => Memory.eq_of_loadProgram_zero (h0 ▸ hl), fun _ _ => rfl, rfl, ⟨rfl, rfl⟩, ⟨rfl, rfl⟩, rfl⟩
  · exact exec_of_effect (.loadpFault b c _ (Memory.loadProgram_of_unmapped hun))

end Sys2Proof.Machine
end

section
/-! SUPPORT. Encoding and decoding are inverse to each other (30_encoding.md R92, R103), and the opcode field alone says
which instruction a word is (R98, R99). -/

namespace Sys2Proof

theorem toNat_ofNat_of_lt {k : Nat} (h : k < 2 ^ 32) : (BitVec.ofNat 32 k).toNat = k := by
  rw [BitVec.toNat_ofNat, Nat.mod_eq_of_lt h]

/-! ## Decoding a canonical word -/

/-- The opcode field of a canonical word, for every instruction (R98, R103). -/
theorem fieldOf_encode_opcode {i : Instr} (h : i.WellFormed) : fieldOf (encode i) 28 4 = i.opcode := by
  cases i with
  | cmov a b c => exact Laws.OpcodeField.cmov a b c h
  | sload a b c => exact Laws.OpcodeField.sload a b c h
  | sstore a b c => exact Laws.OpcodeField.sstore a b c h
  | add a b c => exact Laws.OpcodeField.add a b c h
  | mul a b c => exact Laws.OpcodeField.mul a b c h
  | div a b c => exact Laws.OpcodeField.div a b c h
  | nand a b c => exact Laws.OpcodeField.nand a b c h
  | halt => exact Laws.OpcodeField.halt h
  | map b c => exact Laws.OpcodeField.map b c h
  | unmap c => exact Laws.OpcodeField.unmap c h
  | out c => exact Laws.OpcodeField.out c h
  | inp c => exact Laws.OpcodeField.inp c h
  | loadp b c => exact Laws.OpcodeField.loadp b c h
  | loadv rl imm => exact Laws.OpcodeField.loadv rl imm h

/-- The operands of a well-formed instruction stand in the fields of its canonical word. -/
theorem Instr.operandsIn_encode {i : Instr} (h : i.WellFormed) : i.OperandsIn (encode i) := by
  cases i with
  | cmov a b c | sload a b c | sstore a b c | add a b c | mul a b c | div a b c | nand a b c =>
    exact (threeRegWord_fields (by decide) a b c).2
  | halt => trivial
  | map b c | loadp b c => exact (threeRegWord_fields (by decide) 0 b c).2.2
  | unmap c | out c | inp c => exact (threeRegWord_fields (by decide) 0 0 c).2.2.2
  | loadv rl imm =>
    obtain ⟨-, hrl, himm⟩ := immediateWord_fields rl (of_decide_eq_true h)
    exact ⟨hrl, (congrArg (BitVec.ofNat 32) himm).trans (BitVec.ofNat_toNat ..)⟩

/-- Settles O10: the opcode and every operand stand in the fields of the canonical word, which make up the instruction. -/
theorem decodeOfEncodeIsTheInstruction : Obligations.DecodeOfEncodeIsTheInstruction := fun i h =>
  (decode_eq_ok_iff (encode i) i).2 ⟨fieldOf_encode_opcode h, Instr.operandsIn_encode h⟩

/-! ## Encoding what was decoded -/

/-- The sum of a three-register word adds disjoint bits. -/
theorem threeRegWord_toNat_eq_or {opcode : Nat} (h : opcode < 16) (a b c : Reg) :
    (threeRegWord opcode a b c).toNat = opcode <<< 28 ||| a.val <<< 6 ||| b.val <<< 3 ||| c.val := by
  have hc : c.val < 2 ^ 3 := c.isLt
  have hbc : b.val <<< 3 + c.val < 2 ^ 6 := by rw [Nat.shiftLeft_eq]; omega
  have habc : a.val <<< 6 + (b.val <<< 3 + c.val) < 2 ^ 28 := by rw [Nat.shiftLeft_eq a.val]; omega
  rw [Nat.or_assoc, Nat.or_assoc, ← Nat.shiftLeft_add_eq_or_of_lt hc b.val, ← Nat.shiftLeft_add_eq_or_of_lt hbc a.val,
    ← Nat.shiftLeft_add_eq_or_of_lt habc opcode, threeRegWord_toNat h]
  simp only [Nat.shiftLeft_eq, Nat.add_assoc]

/-- The sum of an immediate-format word adds disjoint bits. -/
theorem immediateWord_toNat_eq_or (rl : Reg) {imm : Word} (h : imm ≤ 0x1FFFFFF#32) :
    (immediateWord rl imm).toNat = 13 <<< 28 ||| rl.val <<< 25 ||| imm.toNat := by
  have himm : imm.toNat < 2 ^ 25 := Nat.lt_succ_of_le (BitVec.le_def.1 h)
  have hrl : rl.val <<< 25 + imm.toNat < 2 ^ 28 := by rw [Nat.shiftLeft_eq]; omega
  rw [Nat.or_assoc, ← Nat.shiftLeft_add_eq_or_of_lt himm rl.val, ← Nat.shiftLeft_add_eq_or_of_lt hrl 13,
    immediateWord_toNat rl h]
  simp only [Nat.shiftLeft_eq, Nat.add_assoc]

/-- A three-register word made of fields of `w` is `w` under the masks of those fields. An operand that is not used is 0,
the field of width 0. -/
theorem threeRegWord_eq_and {w m : Word} {opcode wa wb wc : Nat} {a b c : Reg} (hop : fieldOf w 28 4 = opcode)
    (ha : fieldOf w 6 wa = a.val) (hb : fieldOf w 3 wb = b.val) (hc : fieldOf w 0 wc = c.val)
    (hm : fieldMask 28 4 ||| fieldMask 6 wa ||| fieldMask 3 wb ||| fieldMask 0 wc = m.toNat) :
    threeRegWord opcode a b c = w &&& m := by
  have hlow : fieldOf w 0 wc = w.toNat &&& fieldMask 0 wc := fieldOf_shiftLeft w 0 wc
  apply BitVec.eq_of_toNat_eq
  rw [threeRegWord_toNat_eq_or (hop ▸ fieldOf_lt w 28 4), ← hop, ← ha, ← hb, ← hc, hlow, BitVec.toNat_and, ← hm]
  simp only [fieldOf_shiftLeft, Nat.and_or_distrib_left]

theorem loadValue_toNat (w : Word) : (BitVec.ofNat 32 (fieldOf w 0 25)).toNat = fieldOf w 0 25 :=
  toNat_ofNat_of_lt ((fieldOf_lt w 0 25).trans (by decide))

theorem loadValue_le (w : Word) : BitVec.ofNat 32 (fieldOf w 0 25) ≤ 0x1FFFFFF#32 := by
  rw [BitVec.le_def, loadValue_toNat]
  exact Nat.le_of_lt_succ (fieldOf_lt w 0 25)

/-- The immediate format leaves out no bit, so the word is its own canonical word. -/
theorem immediateWord_of_fields {w : Word} (hop : fieldOf w 28 4 = 13) :
    immediateWord (regField w 25) (BitVec.ofNat 32 (fieldOf w 0 25)) = w := by
  apply BitVec.eq_of_toNat_eq
  rw [immediateWord_toNat_eq_or _ (loadValue_le w), loadValue_toNat, regField_val, ← hop]
  exact immediate_fields_reassemble w

theorem Instr.wellFormed_of_operandsIn {w : Word} {i : Instr} (h : i.OperandsIn w) : i.WellFormed := by
  cases i with
  | loadv rl imm =>
    obtain ⟨-, rfl⟩ := h
    exact decide_eq_true (loadValue_le w)
  | _ => rfl

theorem encode_of_fields {w : Word} {i : Instr} (hop : fieldOf w 28 4 = i.opcode) (h : i.OperandsIn w) :
    encode i = w &&& i.usedBits := by
  have unused : ∀ lsb, fieldOf w lsb 0 = (0 : Reg).val := fieldOf_width_zero w
  cases i with
  | cmov | sload | sstore | add | mul | div | nand =>
    obtain ⟨rfl, rfl, rfl⟩ := h
    exact threeRegWord_eq_and hop rfl rfl rfl rfl
  | halt => exact threeRegWord_eq_and hop (unused 6) (unused 3) (unused 0) rfl
  | map | loadp =>
    obtain ⟨rfl, rfl⟩ := h
    exact threeRegWord_eq_and hop (unused 6) rfl rfl rfl
  | unmap | out | inp =>
    obtain rfl := h
    exact threeRegWord_eq_and hop (unused 6) (unused 3) rfl rfl
  | loadv =>
    obtain ⟨rfl, rfl⟩ := h
    exact (immediateWord_of_fields hop).trans BitVec.and_allOnes.symm

/-- Settles O11: the fields of the word make up the instruction, and so its canonical word. -/
theorem decodedWordsAreWellFormedAndReencode : Obligations.DecodedWordsAreWellFormedAndReencode := by
  intro w i hd
  obtain ⟨hop, hargs⟩ := (decode_eq_ok_iff w i).1 hd
  exact ⟨Instr.wellFormed_of_operandsIn hargs, encode_of_fields hop hargs⟩

/-! ## The opcode field -/

/-- The match of table R98: the word under the opcode mask. -/
theorem and_opcodeMask_eq_iff (w : Word) {k : Nat} (hk : k < 16) :
    w &&& 0xF0000000#32 = BitVec.ofNat 32 (k * 2 ^ 28) ↔ fieldOf w 28 4 = k := by
  have hfield : (w &&& 0xF0000000#32).toNat = fieldOf w 28 4 * 2 ^ 28 := by
    rw [← Nat.shiftLeft_eq, fieldOf_shiftLeft, BitVec.toNat_and]
    rfl
  rw [← BitVec.toNat_inj, hfield, BitVec.toNat_ofNat]
  omega

theorem fourteen_le_opcode_iff (w : Word) : 14 ≤ fieldOf w 28 4 ↔ 0xE0000000#32 ≤ w := by
  have htop : fieldOf w 28 4 = w.toNat / 2 ^ 28 := by
    rw [fieldOf_of_reaches_top w (by decide), Nat.shiftRight_eq_div_pow]
  rw [BitVec.le_def, htop, Nat.le_div_iff_mul_le (by decide)]
  rfl

/-- A word with opcode 14 or 15 is no instruction (R99), and every other word is one. -/
theorem decode_legal_or_illegal (w : Word) :
    (fieldOf w 28 4 < 14 ∧ ∃ i, decode w = .ok i) ∨
    (14 ≤ fieldOf w 28 4 ∧ decode w = .error (.invalidOpcode (fieldOf w 28 4))) := by
  obtain ⟨hop, hd⟩ | ⟨hop, hd⟩ | ⟨hop, hd⟩ | ⟨hop, hd⟩ | ⟨hop, hd⟩ | ⟨hop, hd⟩ | ⟨hop, hd⟩ | ⟨hop, hd⟩ |
    ⟨hop, hd⟩ | ⟨hop, hd⟩ | ⟨hop, hd⟩ | ⟨hop, hd⟩ | ⟨hop, hd⟩ | ⟨hop, hd⟩ | hillegal := decode_cases w
  iterate 14 exact .inl ⟨by omega, _, hd⟩
  exact .inr hillegal

/-- Settles O8: the opcode of an instruction is its word's opcode field, and a word with 14 or more there is none. -/
theorem opcodeFieldSelectsTheInstruction : Obligations.OpcodeFieldSelectsTheInstruction := by
  intro w
  rw [← fourteen_le_opcode_iff]
  have hsel : ∀ {i}, decode w = .ok i → fieldOf w 28 4 = i.opcode := fun hi => ((decode_eq_ok_iff w _).1 hi).1
  obtain ⟨hlegal, i, hi⟩ | ⟨hillegal, he⟩ := decode_legal_or_illegal w
  · refine ⟨fun k hk => ?_, by simp [hi, hlegal], by simp [hi]⟩
    rw [and_opcodeMask_eq_iff w (hk.trans (by decide)), hsel hi]
    simp [hi]
  · refine ⟨fun k hk => ?_, by simp [he, hillegal], by simp [he]⟩
    rw [and_opcodeMask_eq_iff w (hk.trans (by decide))]
    simp [he, (hk.trans_le hillegal).ne']

end Sys2Proof
end

section
/-! SUPPORT. Which identifier Alloc gives, under either policy, and when it gives none (20_memory.md R58, R59;
45_segment_management.md R176, R180). -/

namespace Sys2Proof.Machine

/-! ## The choice of `lifo` (R59) -/

theorem toNat_mem_map_toNat {id : Word} {l : List Word} : id.toNat ∈ l.map BitVec.toNat ↔ id ∈ l :=
  List.mem_map_of_injective fun _ _ => BitVec.eq_of_toNat_eq

theorem State.lifoIdentifier_of_freed {s : State} {id : Word} {rest : List Word}
    (h : s.allocator.freed = id :: rest) : s.lifoIdentifier = some (id, ⟨rest, s.allocator.used⟩) := by
  simp only [State.lifoIdentifier, h]

/-- Everything the choice can be: the top of `freed`, or the smallest member of `ID_SPACE` never handed out. -/
theorem State.lifoIdentifier_eq_some {s : State} {id : Word} {book : Allocator}
    (h : s.lifoIdentifier = some (id, book)) :
    (∃ rest, s.allocator.freed = id :: rest ∧ book = ⟨rest, s.allocator.used⟩) ∨
    (s.allocator.freed = [] ∧ book = ⟨[], id :: s.allocator.used⟩ ∧
      idInSpace s.cfg.idSpace id.toNat = true ∧ id ∉ s.allocator.used ∧
      ∀ j : Word, idInSpace s.cfg.idSpace j.toNat = true → j ∉ s.allocator.used → id ≤ j) := by
  cases hf : s.allocator.freed with
  | cons top rest =>
    cases (State.lifoIdentifier_of_freed hf).symm.trans h
    exact .inl ⟨rest, rfl, rfl⟩
  | nil =>
    simp only [State.lifoIdentifier, hf] at h
    cases hi : smallestUntaken s.cfg.idSpace (s.allocator.used.map BitVec.toNat) 0 with
    | none => simp [hi] at h
    | some i =>
      obtain ⟨-, hsp, hnew, hmin⟩ := smallestUntaken_some hi
      have hval : (BitVec.ofNat 32 i).toNat = i := toNat_ofNat_of_idInSpace hsp
      simp only [hi] at h
      cases h
      refine .inr ⟨rfl, rfl, by rwa [hval], fun hu => hnew ?_, fun j hj hju => ?_⟩
      · rw [← hval]
        exact toNat_mem_map_toNat.2 hu
      · rw [BitVec.le_def, hval]
        exact hmin _ (Nat.zero_le _) hj (fun hm => hju (toNat_mem_map_toNat.1 hm))

theorem State.lifoIdentifier_eq_none {s : State} (h : s.lifoIdentifier = none) :
    s.allocator.freed = [] ∧ ∀ j : Word, idInSpace s.cfg.idSpace j.toNat = true → j ∈ s.allocator.used := by
  cases hf : s.allocator.freed with
  | cons top rest => cases (State.lifoIdentifier_of_freed hf).symm.trans h
  | nil =>
    simp only [State.lifoIdentifier, hf] at h
    cases hi : smallestUntaken s.cfg.idSpace (s.allocator.used.map BitVec.toNat) 0 with
    | some i => simp [hi] at h
    | none =>
      exact ⟨rfl, fun j hj => toNat_mem_map_toNat.1 (smallestUntaken_none hi _ (Nat.zero_le _) hj)⟩

/-! ## The bookkeeping of `lifo` says which identifiers are unused -/

theorem State.LifoBook.mem_used_of_mapped {s : State} (h : s.LifoBook) {id : Word} (hid : id ≠ 0#32)
    (hm : s.mem.mapped id = true) : id ∈ s.allocator.used := by
  obtain ⟨-, -, -, -, hsegs⟩ := h
  obtain ⟨g, hg⟩ := (Memory.mapped_eq_true_iff s.mem id).1 hm
  rw [Memory.seg?_ne_zero s.mem hid] at hg
  simpa using hsegs _ (Cells.mem_of_find? hg)

theorem ne_zero_of_idInSpace {space : List IdRange} {id : Word} (h : idInSpace space id.toNat = true) :
    id ≠ 0#32 := by
  rintro rfl
  exact absurd (idInSpace_bounds h).1 (by decide)

/-- What `lifo` chooses is unused: a freed identifier is not mapped, and one never handed out cannot be. -/
theorem State.LifoBook.allocatable_of_lifoIdentifier {s : State} (h : s.LifoBook) {id : Word} {book : Allocator}
    (hl : s.lifoIdentifier = some (id, book)) : s.allocatable id = true := by
  have ⟨_, _, hfreed, hused, _⟩ := h
  obtain ⟨rest, hf, -⟩ | ⟨-, -, hsp, hnew, -⟩ := State.lifoIdentifier_eq_some hl
  · obtain ⟨hu, hm⟩ := hfreed id (hf ▸ List.mem_cons_self)
    exact State.allocatable_of_unmapped (hused id hu).1 hm
  · refine State.allocatable_of_unmapped hsp (Bool.eq_false_iff.2 fun hm => hnew ?_)
    exact h.mem_used_of_mapped (ne_zero_of_idInSpace hsp) hm

/-- When `lifo` has no choice, every member of `ID_SPACE` was handed out and none is freed: all are mapped. -/
theorem State.LifoBook.not_allocatable_of_lifoIdentifier {s : State} (h : s.LifoBook)
    (hl : s.lifoIdentifier = none) (id : Word) : s.allocatable id = false := by
  obtain ⟨-, -, -, hused, -⟩ := h
  obtain ⟨hf, hall⟩ := State.lifoIdentifier_eq_none hl
  refine Bool.eq_false_iff.2 fun ha => ?_
  have hunmapped := (State.allocatable_ne_zero ha).2
  rcases (hused id (hall id ((State.allocatable_iff s id).1 ha).1)).2 with hm | hfree
  · exact absurd hm (Bool.eq_false_iff.1 hunmapped)
  · simp [hf] at hfree

/-! ## Alloc -/

theorem State.allocWithDraw_of_any {s : State} (hp : s.cfg.allocPolicy = .any) {draw id : Word}
    (h : s.drawnIdentifier draw = some id) (n : Word) :
    s.allocWithDraw n draw = .ok (id, { s with mem := s.mem.setSeg id (Segment.zeros n), draws := s.draws + 1 }) := by
  simp only [State.allocWithDraw, hp, h]

theorem State.allocWithDraw_of_any_none {s : State} (hp : s.cfg.allocPolicy = .any) {draw : Word}
    (h : s.drawnIdentifier draw = none) (n : Word) : s.allocWithDraw n draw = .error .segmentSpaceExhausted := by
  simp only [State.allocWithDraw, hp, h]

theorem State.allocWithDraw_of_lifo {s : State} (hp : s.cfg.allocPolicy = .lifo) {id : Word} {book : Allocator}
    (h : s.lifoIdentifier = some (id, book)) (n draw : Word) :
    s.allocWithDraw n draw = .ok (id, { s with mem := s.mem.setSeg id (Segment.zeros n), allocator := book }) := by
  simp only [State.allocWithDraw, hp, h]

theorem State.allocWithDraw_of_lifo_none {s : State} (hp : s.cfg.allocPolicy = .lifo) (h : s.lifoIdentifier = none)
    (n draw : Word) : s.allocWithDraw n draw = .error .segmentSpaceExhausted := by
  simp only [State.allocWithDraw, hp, h]

/-- An exhausted Alloc had no identifier to choose. -/
theorem State.allocWithDraw_eq_error_cases {s : State} {n draw : Word} {k : FaultKind}
    (h : s.allocWithDraw n draw = .error k) :
    (s.cfg.allocPolicy = .any ∧ s.drawnIdentifier draw = none) ∨
    (s.cfg.allocPolicy = .lifo ∧ s.lifoIdentifier = none) := by
  cases hp : s.cfg.allocPolicy with
  | any =>
    cases hd : s.drawnIdentifier draw with
    | none => exact .inl ⟨rfl, rfl⟩
    | some id => cases (State.allocWithDraw_of_any hp hd n).symm.trans h
  | lifo =>
    cases hl : s.lifoIdentifier with
    | none => exact .inr ⟨rfl, rfl⟩
    | some r => cases (State.allocWithDraw_of_lifo hp hl n draw).symm.trans h

section
variable {s : State} (hbook : s.cfg.allocPolicy = .lifo → s.LifoBook) {n draw : Word}
include hbook

/-- Under either policy Alloc gives a member of the set `U` of unused identifiers. -/
theorem State.allocatable_of_allocWithDraw {id : Word} {u : State} (h : s.allocWithDraw n draw = .ok (id, u)) :
    s.allocatable id = true := by
  obtain ⟨-, hd, -⟩ | ⟨book, hp, hl, -⟩ := State.allocWithDraw_eq_ok h
  · have hspec := State.drawnIdentifier_spec s draw
    rwa [hd] at hspec
  · exact (hbook hp).allocatable_of_lifoIdentifier hl

/-- Under either policy Alloc fails only when `U` is empty. -/
theorem State.not_allocatable_of_allocWithDraw {k : FaultKind} (h : s.allocWithDraw n draw = .error k) (id : Word) :
    s.allocatable id = false := by
  obtain ⟨-, hd⟩ | ⟨hp, hl⟩ := State.allocWithDraw_eq_error_cases h
  · have hspec := State.drawnIdentifier_spec s draw
    rw [hd] at hspec
    exact hspec id
  · exact (hbook hp).not_allocatable_of_lifoIdentifier hl id

theorem State.allocWithDraw_eq_error_iff :
    s.allocWithDraw n draw = .error .segmentSpaceExhausted ↔ ∀ id, s.allocatable id = false := by
  refine ⟨State.not_allocatable_of_allocWithDraw hbook, fun hnone => ?_⟩
  cases h : s.allocWithDraw n draw with
  | error k => rw [State.allocWithDraw_eq_error h]
  | ok r => exact absurd (State.allocatable_of_allocWithDraw hbook h) (Bool.eq_false_iff.1 (hnone r.1))

end

/-! ## The new segment -/

theorem State.allocWithDraw_mem {s u : State} {n draw id : Word} (h : s.allocWithDraw n draw = .ok (id, u)) :
    u.mem = s.mem.setSeg id (Segment.zeros n) := by
  obtain ⟨-, -, rfl⟩ | ⟨book, -, -, rfl⟩ := State.allocWithDraw_eq_ok h <;> rfl

/-- Alloc changes the memory, the bookkeeping and the draw counter alone, and of the last two only the one its policy
uses. -/
theorem State.allocWithDraw_frame {s u : State} {n draw id : Word} (h : s.allocWithDraw n draw = .ok (id, u)) :
    ∃ book d, u = { s with mem := s.mem.setSeg id (Segment.zeros n), allocator := book, draws := d } ∧
      (s.cfg.allocPolicy = .any → book = s.allocator) ∧ (s.cfg.allocPolicy = .lifo → d = s.draws) := by
  obtain ⟨hp, -, rfl⟩ | ⟨book, hp, -, rfl⟩ := State.allocWithDraw_eq_ok h
  · exact ⟨s.allocator, s.draws + 1, rfl, fun _ => rfl, fun hl => by cases hp.symm.trans hl⟩
  · exact ⟨book, s.draws, rfl, fun ha => (by cases hp.symm.trans ha), fun _ => rfl⟩

@[simp] theorem Memory.setSeg_len?_self (m : Memory) (id : Word) (g : Segment) :
    (m.setSeg id g).len? id = some g.len :=
  (Memory.len?_eq_some_iff ..).2 ⟨g, Memory.setSeg_seg?_self m id g, rfl⟩

theorem Memory.setSeg_zeros_read (m : Memory) (id : Word) {n off : Word} (h : off < n) :
    (m.setSeg id (Segment.zeros n)).read id off = .ok 0#32 :=
  Memory.read_of_lt_len (Memory.setSeg_seg?_self ..) h

theorem Memory.setSeg_read_ne (m : Memory) {id j : Word} (g : Segment) (h : j ≠ id) (off : Word) :
    (m.setSeg id g).read j off = m.read j off :=
  Memory.read_congr (Memory.setSeg_seg?_ne m g h) off

/-! ## The obligations about Alloc -/

/-- Settles O30: a draw gives a member of `U`, a member of `U` drawn is given itself, and only an empty `U` gives none. -/
theorem anyPolicyDrawsExactlyTheUnusedIdentifiers : Obligations.AnyPolicyDrawsExactlyTheUnusedIdentifiers := by
  intro s n hp
  have hbook : s.cfg.allocPolicy = .lifo → s.LifoBook := fun hl => by cases hp.symm.trans hl
  refine ⟨fun draw id u h => ?_, fun id ha => ?_, fun draw => (State.allocWithDraw_eq_error_iff hbook).symm⟩
  · rw [State.SameMemOutside, State.allocWithDraw_mem h]
    exact ⟨State.allocatable_of_allocWithDraw hbook h, Memory.setSeg_len?_self ..,
      fun off hoff => Memory.setSeg_zeros_read s.mem id hoff, fun j off hj => Memory.setSeg_read_ne s.mem _ hj off⟩
  · exact ⟨id, _, State.allocWithDraw_of_any hp (State.drawnIdentifier_self ha) n⟩

/-- A MAP under `lifo` that has a choice ends with it in `x[b]`. -/
theorem exec_map_of_lifo {s : State} (hp : s.cfg.allocPolicy = .lifo) {id : Word} {book : Allocator}
    (h : s.lifoIdentifier = some (id, book)) (b c : Reg) :
    ∃ t, exec (.map b c) s = .next t ∧ t.x b = id ∧ t.mem.len? id = some (s.x c) ∧ t.allocator = book :=
  ⟨_, exec_of_effect (.map b c _ _ (State.allocWithDraw_of_lifo hp h (s.x c) _)), State.setX_x_self ..,
    Memory.setSeg_len?_self .., rfl⟩

/-- Settles O31: the choice of `lifo` is the top of `freed`, else the least identifier never handed out, else none. -/
theorem lifoReusesTheMostRecentlyFreed : Obligations.LifoReusesTheMostRecentlyFreed := by
  intro b c s hp
  refine ⟨fun id rest hf => exec_map_of_lifo hp (State.lifoIdentifier_of_freed hf) b c,
    fun id hf hsp hnew hmin => ?_, fun hf hall => ?_⟩
  · cases hl : s.lifoIdentifier with
    | none => exact absurd ((State.lifoIdentifier_eq_none hl).2 id hsp) hnew
    | some r =>
      obtain ⟨j, book⟩ := r
      obtain ⟨rest, hcons, -⟩ | ⟨-, rfl, hjsp, hjnew, hjmin⟩ := State.lifoIdentifier_eq_some hl
      · cases hf.symm.trans hcons
      · have hj : j = id := BitVec.le_antisymm (hjmin id hsp hnew) (hmin j hjsp hjnew)
        subst hj
        exact exec_map_of_lifo hp hl b c
  · cases hl : s.lifoIdentifier with
    | none => exact exec_of_effect (.mapFault b c _ (State.allocWithDraw_of_lifo_none hp hl ..))
    | some r =>
      obtain ⟨rest, hcons, -⟩ | ⟨-, -, hsp, hnew, -⟩ := State.lifoIdentifier_eq_some hl
      · cases hf.symm.trans hcons
      · exact absurd (hall _ hsp) hnew

/-- Settles O32: what `lifo` gives is in `U`, so under `any` it is its own draw; and both fail when `U` is empty. -/
theorem lifoIsOneOfTheBehavioursOfAny : Obligations.LifoIsOneOfTheBehavioursOfAny := by
  intro s n draw hinv hp
  obtain ⟨-, ⟨-, -, hbook⟩, -⟩ := hinv
  refine ⟨fun id u h => ?_, ?_⟩
  · have hself := State.drawnIdentifier_self
      (s := { s with cfg := { s.cfg with allocPolicy := .any } }) (State.allocatable_of_allocWithDraw hbook h)
    exact ⟨id, _, State.allocWithDraw_of_any rfl hself n, (State.allocWithDraw_mem h).symm⟩
  · have hany : ∀ d, _ ↔ ∀ id, s.allocatable id = false := fun d =>
      State.allocWithDraw_eq_error_iff (s := { s with cfg := { s.cfg with allocPolicy := .any } })
        (n := n) (draw := d) (fun h => by cases h)
    rw [State.allocWithDraw_eq_error_iff hbook]
    exact ⟨fun h d => (hany d).2 h, fun h => (hany 0#32).1 (h 0#32)⟩

/-- Settles O21: MAP ends as Alloc does, which under either policy gives a member of `U` or finds `U` empty. -/
theorem mapGivesAFreshZeroSegmentOrFaults : Obligations.MapGivesAFreshZeroSegmentOrFaults := by
  refine ⟨fun w hop => (decode_eq_ok_iff w _).2 ⟨hop, rfl, rfl⟩, fun b c s hinv => ?_⟩
  obtain ⟨-, ⟨-, -, hbook⟩, -⟩ := hinv
  refine ⟨fun ⟨i, hi⟩ => ?_, fun hnone => ?_⟩
  · cases ha : s.alloc (s.x c) with
    | error k => exact absurd hi (Bool.eq_false_iff.1 (State.not_allocatable_of_allocWithDraw hbook ha i))
    | ok r =>
      obtain ⟨id, u⟩ := r
      have hfresh := State.allocatable_of_allocWithDraw hbook ha
      obtain ⟨hid, hunmapped⟩ := State.allocatable_ne_zero hfresh
      obtain ⟨book, d, rfl, hany, hlifo⟩ := State.allocWithDraw_frame ha
      refine ⟨_, exec_of_effect (.map b c id _ ha), ?_⟩
      rw [State.advance_x, State.setX_x_self]
      exact ⟨hid, hunmapped, ((State.allocatable_iff s id).1 hfresh).1, Memory.setSeg_len?_self ..,
        fun off hoff => Memory.setSeg_zeros_read s.mem id hoff,
        fun j off hj => Memory.setSeg_read_ne s.mem _ hj off, rfl,
        fun r hr => State.setX_x_ne _ id (List.ne_of_not_mem_cons hr), rfl, ⟨rfl, rfl⟩, rfl, hany, hlifo⟩
  · exact exec_of_effect (.mapFault b c _ ((State.allocWithDraw_eq_error_iff hbook).2 hnone))

end Sys2Proof.Machine
end

section
/-! SUPPORT. The invariant (`State.Inv`): each part of it is kept by what an instruction can do to that part, so every
step keeps it, and it holds of every state of a booted run (20_memory.md R58, R59, R61; 10_state.md R33, R35). -/

namespace Sys2Proof.Machine

/-! ## What Alloc and Free leave unchanged -/

/-- Free changes the memory and the bookkeeping alone. -/
theorem State.free_frame {s u : State} {id : Word} (h : s.free id = .ok u) :
    ∃ m, s.mem.free id = .ok m ∧
      u = { s with mem := m, allocator := s.allocator.release s.cfg.allocPolicy id } := by
  have hm := State.free_mem h
  exact ⟨u.mem, hm, Except.ok.inj (h.symm.trans (State.free_of_mem_ok hm))⟩

/-! ## Canonical memory -/

theorem Effect.mem_wf {s t : State} {i : Instr} (h : Effect s i t) (hwf : s.mem.wf) : t.mem.wf := by
  obtain hkeep | ⟨a, b, c, -, hw⟩ | ⟨b, c, -, hmap⟩ | ⟨c, -, hf⟩ | ⟨b, c, -, hl⟩ := h.mem_cases
  · rwa [hkeep]
  · exact Memory.write_wf hwf hw
  · rw [hmap]
    exact Memory.zeros_wf _ _ hwf
  · exact Memory.free_wf hwf hf
  · exact Memory.loadProgram_wf hwf hl

/-! ## The input stream -/

/-- Everything an instruction can do to the input stream: IN alone moves it, by what it polled. -/
theorem Effect.input_cases {s t : State} {i : Instr} (h : Effect s i t) :
    t.input = s.input ∨
    (∃ c, i = .inp c ∧
      ((∃ b, s.input.poll = .byte b ∧ t.input = s.input.consume) ∨
       (s.input.poll = .eof ∧ t.input = s.input.signalEof))) := by
  cases h with
  | inByte c b hp => exact .inr ⟨c, rfl, .inl ⟨b, hp, rfl⟩⟩
  | inEof c hp _ => exact .inr ⟨c, rfl, .inr ⟨hp, rfl⟩⟩
  | map b c id u ha =>
    obtain ⟨book, d, rfl, -, -⟩ := State.allocWithDraw_frame ha
    exact .inl rfl
  | unmap c u hf =>
    obtain ⟨m, -, rfl⟩ := State.free_frame hf
    exact .inl rfl
  | _ => exact .inl rfl

/-- A byte was polled, so there is one to consume. -/
theorem InputStream.consume_sound {i : InputStream} {b : Byte} (hp : i.poll = .byte b) : i.consume.Sound := by
  have hspec := i.poll_spec
  rw [hp] at hspec
  obtain ⟨hnot, hb⟩ := hspec
  have hlt : i.pos < i.bytes.length := (List.getElem?_eq_some_iff.1 hb).1
  exact ⟨hlt, fun he => by simp [hnot] at he⟩

/-- End of input was polled, so it is known already or the closed stream is used up. -/
theorem InputStream.Sound.signalEof {i : InputStream} (h : i.Sound) (hp : i.poll = .eof) : i.signalEof.Sound := by
  have hspec := i.poll_spec
  rw [hp] at hspec
  obtain ⟨hle, hseen⟩ := h
  refine ⟨hle, fun _ => ?_⟩
  rcases hspec with he | ⟨hnone, hclosed⟩
  · exact hseen he
  · exact ⟨hclosed, Nat.le_antisymm hle (List.getElem?_eq_none_iff.1 hnone)⟩

theorem Effect.input_sound {s t : State} {i : Instr} (h : Effect s i t) (hs : s.input.Sound) : t.input.Sound := by
  obtain hkeep | ⟨c, -, ⟨b, hp, hbyte⟩ | ⟨hp, heof⟩⟩ := h.input_cases
  · rwa [hkeep]
  · rw [hbyte]
    exact InputStream.consume_sound hp
  · rw [heof]
    exact hs.signalEof hp

/-! ## The allocator -/

theorem ofNat_ne_zero {k : Nat} (hpos : 0 < k) (hlt : k < 2 ^ 32) : BitVec.ofNat 32 k ≠ 0#32 := fun h0 =>
  hpos.ne ((congrArg BitVec.toNat h0).symm.trans (toNat_ofNat_of_lt hlt))

/-- What the listed segments of a canonical memory satisfy is what the mapped identifiers satisfy. -/
theorem Memory.forall_mem_segs_iff {m : Memory} (h : m.wf) (P : Nat → Prop) :
    (∀ e ∈ m.segs, P e.1) ↔ ∀ id : Word, id ≠ 0#32 → m.mapped id = true → P id.toNat := by
  obtain ⟨-, -, hsegs⟩ := h
  constructor
  · intro hall id hid hm
    obtain ⟨e, he, hkey⟩ := List.mem_map.1 ((Memory.mapped_iff_mem_ids m hid).1 hm)
    exact hkey ▸ hall e he
  · intro hall e he
    obtain ⟨hpos, hlt, -⟩ := hsegs e he
    have hval : (BitVec.ofNat 32 e.1).toNat = e.1 := toNat_ofNat_of_lt hlt
    have hid : BitVec.ofNat 32 e.1 ≠ 0#32 := ofNat_ne_zero hpos hlt
    have hmapped : m.mapped (BitVec.ofNat 32 e.1) = true := by
      rw [Memory.mapped_iff_mem_ids m hid, hval]
      exact Cells.mem_keys_of_mem he
    exact hval ▸ hall _ hid hmapped

/-- The bookkeeping of `lifo` (R59), said of the identifiers that are mapped and not of how memory lists them. -/
def Allocator.InOrder (book : Allocator) (space : List IdRange) (mapped : Word → Prop) : Prop :=
  book.freed.Nodup ∧ book.used.Nodup ∧
  (∀ id ∈ book.freed, id ∈ book.used ∧ ¬ mapped id) ∧
  (∀ id ∈ book.used, idInSpace space id.toNat = true ∧ (mapped id ∨ id ∈ book.freed)) ∧
  (∀ id, id ≠ 0#32 → mapped id → id ∈ book.used)

theorem State.lifoBook_iff {s : State} (h : s.mem.wf) :
    s.LifoBook ↔ s.allocator.InOrder s.cfg.idSpace (fun id => s.mem.mapped id = true) := by
  have hsegs := Memory.forall_mem_segs_iff h (fun n => BitVec.ofNat 32 n ∈ s.allocator.used)
  simp only [BitVec.ofNat_toNat, BitVec.setWidth_eq] at hsegs
  simp only [State.LifoBook, Allocator.InOrder, hsegs, Bool.not_eq_true]

section
variable {freed used : List Word} {space : List IdRange} {mapped mapped' : Word → Prop} {id : Word}

theorem Allocator.InOrder.congr {book : Allocator} (h : book.InOrder space mapped)
    (hm : ∀ j, mapped' j ↔ mapped j) : book.InOrder space mapped' := by
  obtain rfl : mapped' = mapped := funext fun j => propext (hm j)
  exact h

/-- The top of `freed` is mapped again. -/
theorem Allocator.InOrder.pop (h : Allocator.InOrder ⟨id :: freed, used⟩ space mapped) :
    Allocator.InOrder ⟨freed, used⟩ space (fun j => j = id ∨ mapped j) := by
  obtain ⟨hnodup, hused, hfreed, hspace, hall⟩ := h
  obtain ⟨hnew, hrest⟩ := List.nodup_cons.1 hnodup
  obtain ⟨hid, -⟩ := hfreed id List.mem_cons_self
  refine ⟨hrest, hused, fun j hj => ?_, fun j hj => ?_, fun j hj0 hj => ?_⟩
  · obtain ⟨hju, hjm⟩ := hfreed j (List.mem_cons_of_mem _ hj)
    exact ⟨hju, not_or.2 ⟨fun e => hnew (e ▸ hj), hjm⟩⟩
  · obtain ⟨hjs, hjm | hjf⟩ := hspace j hj
    · exact ⟨hjs, .inl (.inr hjm)⟩
    · exact ⟨hjs, (List.mem_cons.1 hjf).imp_left .inl⟩
  · exact hj.elim (fun e => e ▸ hid) (hall j hj0)

/-- An identifier never handed out is mapped, with none freed. -/
theorem Allocator.InOrder.handOut (h : Allocator.InOrder ⟨[], used⟩ space mapped) (hnew : id ∉ used)
    (hsp : idInSpace space id.toNat = true) :
    Allocator.InOrder ⟨[], id :: used⟩ space (fun j => j = id ∨ mapped j) := by
  obtain ⟨-, hused, -, hspace, hall⟩ := h
  refine ⟨List.nodup_nil, List.nodup_cons.2 ⟨hnew, hused⟩, fun j hj => absurd hj List.not_mem_nil,
    fun j hj => ?_, fun j hj0 hj => List.mem_cons.2 (hj.imp_right (hall j hj0))⟩
  rcases List.mem_cons.1 hj with rfl | hj
  · exact ⟨hsp, .inl (.inl rfl)⟩
  · exact ⟨(hspace j hj).1, (hspace j hj).2.imp_left .inr⟩

/-- A mapped identifier is freed. -/
theorem Allocator.InOrder.push (h : Allocator.InOrder ⟨freed, used⟩ space mapped) (hid : id ≠ 0#32)
    (hm : mapped id) : Allocator.InOrder ⟨id :: freed, used⟩ space (fun j => j ≠ id ∧ mapped j) := by
  obtain ⟨hnodup, hused, hfreed, hspace, hall⟩ := h
  refine ⟨List.nodup_cons.2 ⟨fun hf => (hfreed id hf).2 hm, hnodup⟩, hused, fun j hj => ?_, fun j hj => ?_,
    fun j hj0 hj => hall j hj0 hj.2⟩
  · rcases List.mem_cons.1 hj with rfl | hj
    · exact ⟨hall j hid hm, fun hn => hn.1 rfl⟩
    · exact ⟨(hfreed j hj).1, fun hn => (hfreed j hj).2 hn.2⟩
  · obtain ⟨hjs, hjm | hjf⟩ := hspace j hj
    · by_cases hji : j = id
      · exact ⟨hjs, .inr (hji ▸ List.mem_cons_self)⟩
      · exact ⟨hjs, .inl ⟨hji, hjm⟩⟩
    · exact ⟨hjs, .inr (List.mem_cons_of_mem _ hjf)⟩

end

theorem Memory.setSeg_mapped_iff (m : Memory) (id j : Word) (g : Segment) :
    (m.setSeg id g).mapped j = true ↔ j = id ∨ m.mapped j = true := by
  by_cases hj : j = id
  · simp [hj, Memory.setSeg_mapped_self]
  · simp [hj, Memory.mapped_congr (Memory.setSeg_seg?_ne m g hj)]

theorem Memory.free_mapped_iff {m m' : Memory} {id : Word} (h : m.free id = .ok m') (j : Word) :
    m'.mapped j = true ↔ j ≠ id ∧ m.mapped j = true := by
  by_cases hj : j = id
  · simp [hj, Memory.free_mapped_self h]
  · simp [hj, Memory.mapped_congr (Memory.free_seg?_ne h hj)]

/-- The allocator stays in order when no mapping changes. -/
theorem State.AllocatorSound.congr {s t : State} (h : s.AllocatorSound) (hs : s.mem.wf) (ht : t.mem.wf)
    (hm : ∀ id, t.mem.mapped id = s.mem.mapped id) (ha : t.allocator = s.allocator) (hc : t.cfg = s.cfg) :
    t.AllocatorSound := by
  simpa only [State.AllocatorSound, State.IdsInSpace, State.lifoBook_iff hs, State.lifoBook_iff ht,
    Memory.forall_mem_segs_iff hs (idInSpace s.cfg.idSpace · = true),
    Memory.forall_mem_segs_iff ht (idInSpace s.cfg.idSpace · = true), hm, ha, hc] using h

theorem State.AllocatorSound.alloc {s u : State} (h : s.AllocatorSound) (hs : s.mem.wf) {n draw id : Word}
    (ha : s.allocWithDraw n draw = .ok (id, u)) : u.AllocatorSound := by
  obtain ⟨hspace, hany, hbook⟩ := h
  have hfresh := State.allocatable_of_allocWithDraw hbook ha
  have hsp : idInSpace s.cfg.idSpace id.toNat = true := ((State.allocatable_iff s id).1 hfresh).1
  have hu : (s.mem.setSeg id (Segment.zeros n)).wf := Memory.zeros_wf id n hs
  have hids : ∀ e ∈ (s.mem.setSeg id (Segment.zeros n)).segs, idInSpace s.cfg.idSpace e.1 = true := by
    refine (Memory.forall_mem_segs_iff hu (idInSpace s.cfg.idSpace · = true)).2 fun j hj hm => ?_
    rcases (Memory.setSeg_mapped_iff ..).1 hm with rfl | hm
    · exact hsp
    · exact hspace.idInSpace_of_mapped hj hm
  obtain ⟨hp, -, rfl⟩ | ⟨book, hp, hl, rfl⟩ := State.allocWithDraw_eq_ok ha
  · exact ⟨hids, hany, fun hl => by cases hp.symm.trans hl⟩
  · refine ⟨hids, fun ha => (by cases hp.symm.trans ha), fun _ => (State.lifoBook_iff hu).2 ?_⟩
    have horder := (State.lifoBook_iff hs).1 (hbook hp)
    have hmapped := Memory.setSeg_mapped_iff s.mem id (g := Segment.zeros n)
    obtain ⟨rest, hf, rfl⟩ | ⟨hf, rfl, -, hnew, -⟩ := State.lifoIdentifier_eq_some hl
    · have hold : s.allocator = ⟨id :: rest, s.allocator.used⟩ := by rw [← hf]
      rw [hold] at horder
      exact horder.pop.congr hmapped
    · have hold : s.allocator = ⟨[], s.allocator.used⟩ := by rw [← hf]
      rw [hold] at horder
      exact (horder.handOut hnew hsp).congr hmapped

theorem State.AllocatorSound.free {s u : State} (h : s.AllocatorSound) (hs : s.mem.wf) {id : Word}
    (hf : s.free id = .ok u) : u.AllocatorSound := by
  obtain ⟨hspace, hany, hbook⟩ := h
  obtain ⟨m, hm, rfl⟩ := State.free_frame hf
  obtain ⟨hid, hid_mapped, -⟩ := Memory.free_eq_ok hm
  have hmapped := Memory.free_mapped_iff hm
  have hu : m.wf := Memory.free_wf hs hm
  refine ⟨?_, fun hp => ?_, fun hp => (State.lifoBook_iff hu).2 ?_⟩
  · refine (Memory.forall_mem_segs_iff hu (idInSpace s.cfg.idSpace · = true)).2 fun j hj hj_mapped => ?_
    exact hspace.idInSpace_of_mapped hj ((hmapped j).1 hj_mapped).2
  · show s.allocator.release s.cfg.allocPolicy id = ⟨[], []⟩
    rw [hp, Allocator.release_any, hany hp]
  · show (s.allocator.release s.cfg.allocPolicy id).InOrder s.cfg.idSpace (fun j => m.mapped j = true)
    rw [hp]
    exact (((State.lifoBook_iff hs).1 (hbook hp)).push hid hid_mapped).congr hmapped

theorem Effect.allocatorSound {s t : State} {i : Instr} (h : Effect s i t) (hs : s.mem.wf) (ha : s.AllocatorSound) :
    t.AllocatorSound := by
  have ht := h.mem_wf hs
  cases h with
  | map b c id u hok => exact ha.alloc (u := u) hs hok
  | unmap c u hok => exact ha.free (u := u) hs hok
  | sstore a b c m hw => exact ha.congr hs ht (Memory.write_mapped hw) rfl rfl
  | loadp b c m hl => exact ha.congr hs ht (Memory.loadProgram_mapped hl) rfl rfl
  | _ => exact ha

/-! ## The whole invariant, along a step and a run -/

theorem Effect.inv {s t : State} {i : Instr} (h : Effect s i t) (hs : s.Inv) : t.Inv := by
  obtain ⟨hmem, halloc, hinput⟩ := hs
  exact ⟨h.mem_wf hmem, h.allocatorSound hmem halloc, h.input_sound hinput⟩

theorem Effect.cfg_eq {s t : State} {i : Instr} (h : Effect s i t) : t.cfg = s.cfg := by
  cases h with
  | map b c id u ha =>
    obtain ⟨book, d, rfl, -, -⟩ := State.allocWithDraw_frame ha
    rfl
  | unmap c u hf =>
    obtain ⟨m, -, rfl⟩ := State.free_frame hf
    rfl
  | _ => rfl

/-- A step ends the run and keeps all else, or is an effect of the fetched instruction. -/
theorem step_eq_next_cases {s t : State} (h : step s = .next t) :
    (∃ r, t = { s with run := r } ∧ r ≠ .running ∧ (r = .halted → s.pc = s.mem.progLen)) ∨
    (s.pc < s.mem.progLen ∧ ∃ i, decode s.fetchWord = .ok i ∧ Effect s i t) := by
  obtain ⟨-, ⟨hend, rfl⟩ | ⟨-, rfl⟩ | ⟨-, -, rfl⟩ | ⟨hlt, i, hd, hex⟩⟩ := step_eq_next h
  · exact .inl ⟨_, rfl, by decide, fun _ => hend⟩
  · exact .inl ⟨_, rfl, by decide, fun hr => by cases hr⟩
  · exact .inl ⟨_, rfl, by decide, fun hr => by cases hr⟩
  · exact .inr ⟨hlt, i, hd, effect_of_exec hex⟩

/-- Settles O56: a step without an instruction keeps all the invariant speaks of, and an instruction keeps each part. -/
theorem everyStepKeepsTheInvariant : Obligations.EveryStepKeepsTheInvariant := by
  intro s t hs h
  obtain ⟨r, rfl, -, -⟩ | ⟨-, i, -, he⟩ := step_eq_next_cases h
  · exact ⟨hs, rfl⟩
  · exact ⟨he.inv hs, he.cfg_eq⟩

/-- A loaded machine has nothing mapped but its program, and its stream is at its start. -/
theorem State.loaded_inv (cfg : Config) {ws : List Word} (h : ws.length < 2 ^ 32) (bytes : List Byte)
    (closed : Bool) : (State.loaded cfg ws bytes closed).Inv := by
  have hbook : (State.loaded cfg ws bytes closed).LifoBook :=
    ⟨List.nodup_nil, List.nodup_nil, fun _ hid => absurd hid List.not_mem_nil,
      fun _ hid => absurd hid List.not_mem_nil, fun _ he => absurd he List.not_mem_nil⟩
  exact ⟨⟨Segment.ofWords_wf h, List.Pairwise.nil, fun _ he => absurd he List.not_mem_nil⟩,
    ⟨fun _ he => absurd he List.not_mem_nil, fun _ => rfl, fun _ => hbook⟩,
    ⟨Nat.zero_le _, fun he => by cases he⟩⟩

/-- Settles O57: reset is the loaded state of the empty program. -/
theorem resetMeetsTheInvariant : Obligations.ResetMeetsTheInvariant :=
  State.loaded_inv Config.default (ws := []) (by decide) [] true

/-- Neither what the device has delivered nor whether it is closed is moved by a step. -/
theorem step_input_eq {s t : State} (h : step s = .next t) :
    t.input.bytes = s.input.bytes ∧ t.input.closed = s.input.closed ∧
      (s.input.eofSeen = true → t.input.eofSeen = true) := by
  obtain ⟨r, rfl, -, -⟩ | ⟨-, i, -, he⟩ := step_eq_next_cases h
  · exact ⟨rfl, rfl, id⟩
  · obtain hkeep | ⟨c, -, ⟨b, -, hmove⟩ | ⟨-, hmove⟩⟩ := he.input_cases
    · rw [hkeep]
      exact ⟨rfl, rfl, id⟩
    · rw [hmove]
      exact ⟨rfl, rfl, id⟩
    · rw [hmove]
      exact ⟨rfl, rfl, fun _ => rfl⟩

/-- What holds of a state and is kept by every step holds after any number of steps. -/
theorem State.After.keeps {P : State → Prop} (hstep : ∀ s t, P s → step s = .next t → P t) {n : Nat} {s t : State}
    (hs : P s) (h : State.After n s t) : P t := by
  induction n generalizing s with
  | zero =>
    obtain rfl := (State.after_zero s t).1 h
    exact hs
  | succ n ih =>
    obtain ⟨u, hu, hrest⟩ := (State.after_succ n s t).1 h
    exact ih (hstep s u hs hu) hrest

theorem State.boot_eq_ok {cfg : Config} {file bytes : List Byte} {closed : Bool} {s : State}
    (h : State.boot cfg file bytes closed = .ok s) :
    ∃ ws, ws.length < 2 ^ 32 ∧ s = State.loaded cfg ws bytes closed := by
  unfold State.boot at h
  split at h
  · cases h
  · next ws _ =>
    split at h
    · cases h
    · next hlen =>
      cases h
      exact ⟨ws, Nat.lt_of_not_le hlen, rfl⟩

/-- What every state of a booted run keeps from its start. -/
def State.Booted (cfg : Config) (bytes : List Byte) (closed : Bool) (s : State) : Prop :=
  s.Inv ∧ s.cfg = cfg ∧ s.input.bytes = bytes ∧ s.input.closed = closed

theorem State.Booted.step {cfg : Config} {bytes : List Byte} {closed : Bool} (s t : State)
    (hs : s.Booted cfg bytes closed) (h : step s = .next t) : t.Booted cfg bytes closed := by
  obtain ⟨hinv, hcfg, hbytes, hclosed⟩ := hs
  obtain ⟨hinv', hcfg'⟩ := everyStepKeepsTheInvariant s t hinv h
  obtain ⟨hbytes', hclosed', -⟩ := step_input_eq h
  exact ⟨hinv', hcfg'.trans hcfg, hbytes'.trans hbytes, hclosed'.trans hclosed⟩

/-- Settles O58: the loaded state is `Booted`, every step keeps that, and segment 0 is mapped in every state. -/
theorem everyStateOfABootedRunMeetsTheInvariant : Obligations.EveryStateOfABootedRunMeetsTheInvariant := by
  intro cfg file bytes closed s t n hboot hrun
  obtain ⟨ws, hlen, rfl⟩ := State.boot_eq_ok hboot
  obtain ⟨hinv, hcfg, hbytes, hclosed⟩ :=
    hrun.keeps State.Booted.step ⟨State.loaded_inv cfg hlen bytes closed, rfl, rfl, rfl⟩
  exact ⟨hinv, hcfg, Memory.mapped_zero t.mem, hbytes, hclosed⟩

end Sys2Proof.Machine
end

section
/-! SUPPORT. Canonical memories are determined by what they answer to reads (20_memory.md R56; log 1). -/

namespace Sys2Proof.Machine

/-- A cell of a canonical segment is found exactly where the segment has a word that is not 0. -/
theorem Segment.find?_cells_eq {g : Segment} (h : g.wf) (off : Word) :
    Cells.find? g.cells off.toNat = if g.word off = 0#32 then none else some (g.word off) := by
  obtain ⟨-, hcells⟩ := h
  cases hf : Cells.find? g.cells off.toNat with
  | none => simp [Segment.word, hf]
  | some v =>
    obtain ⟨-, hv⟩ := hcells _ (Cells.mem_of_find? hf)
    simp [Segment.word, hf, hv]

/-- Nothing is listed at or above the length. -/
theorem Segment.find?_cells_of_len_le {g : Segment} (h : g.wf) {k : Nat} (hk : g.len.toNat ≤ k) :
    Cells.find? g.cells k = none := by
  obtain ⟨-, hcells⟩ := h
  refine Option.eq_none_iff_forall_ne_some.2 fun v hf => ?_
  obtain ⟨hlt, -⟩ := hcells _ (Cells.mem_of_find? hf)
  exact absurd hlt (Nat.not_lt.2 hk)

theorem Segment.eq_of_words_eq {g h : Segment} (hg : g.wf) (hh : h.wf) (hlen : g.len = h.len)
    (hword : ∀ off, off < g.len → g.word off = h.word off) : g = h := by
  have hcells : g.cells = h.cells := by
    refine Cells.eq_of_find?_eq hg.1 hh.1 fun k => ?_
    rcases Nat.lt_or_ge k g.len.toNat with hk | hk
    · have hval : (BitVec.ofNat 32 k).toNat = k := toNat_ofNat_of_lt (hk.trans g.len.isLt)
      have hoff : BitVec.ofNat 32 k < g.len := by rwa [BitVec.lt_def, hval]
      rw [← hval, Segment.find?_cells_eq hg, Segment.find?_cells_eq hh, hword _ hoff]
    · rw [Segment.find?_cells_of_len_le hg hk, Segment.find?_cells_of_len_le hh (hlen ▸ hk)]
  cases g
  cases h
  rw [Segment.mk.injEq]
  exact ⟨hlen, hcells⟩

/-- The reads of a segment tell where it ends. -/
theorem Memory.len_le_of_read_eq {m n : Memory} {id : Word} {g h : Segment} (hg : m.seg? id = some g)
    (hh : n.seg? id = some h) (hread : ∀ off, m.read id off = n.read id off) : h.len ≤ g.len := by
  refine BitVec.not_lt.1 fun hlt => ?_
  -- at the end of the shorter one, the one read faults and the other does not
  have hend := hread g.len
  rw [Memory.read_of_seg?_len_le hg (BitVec.le_refl _), Memory.read_of_lt_len hh hlt] at hend
  cases hend

/-- A read tells whether the identifier is mapped. -/
theorem Memory.read_eq_unmapped_iff (m : Memory) (id off : Word) :
    m.read id off = .error .unmappedSegmentAccess ↔ m.seg? id = none := by
  cases hg : m.seg? id with
  | none => simp [Memory.read, hg]
  | some g =>
    rw [Memory.read_of_seg? hg]
    split <;> simp

/-- Under an identifier that reads alike in both, canonical memories hold the same segment or none. -/
theorem Memory.seg?_eq_of_read_eq {m n : Memory} (hm : m.wf) (hn : n.wf) {id : Word}
    (hread : ∀ off, m.read id off = n.read id off) : m.seg? id = n.seg? id := by
  have hnone : m.seg? id = none ↔ n.seg? id = none := by
    rw [← Memory.read_eq_unmapped_iff m id 0#32, ← Memory.read_eq_unmapped_iff n id 0#32, hread]
  cases hg : m.seg? id with
  | none => exact (hnone.1 hg).symm
  | some g =>
    cases hh : n.seg? id with
    | none => cases hg.symm.trans (hnone.2 hh)
    | some h =>
      have hlen : g.len = h.len := BitVec.le_antisymm
        (Memory.len_le_of_read_eq hh hg fun off => (hread off).symm) (Memory.len_le_of_read_eq hg hh hread)
      refine congrArg some
        (Segment.eq_of_words_eq (Memory.seg?_wf hm hg) (Memory.seg?_wf hn hh) hlen fun off hlt => ?_)
      have hoff := hread off
      rw [Memory.read_of_lt_len hg hlt, Memory.read_of_lt_len hh (hlen ▸ hlt)] at hoff
      exact Except.ok.inj hoff

/-- A canonical memory lists identifiers in 1 .. 2^32 − 1 only. -/
theorem Memory.find?_segs_eq {m : Memory} (h : m.wf) (k : Nat) :
    Cells.find? m.segs k = if 0 < k ∧ k < 2 ^ 32 then m.seg? (BitVec.ofNat 32 k) else none := by
  obtain ⟨-, -, hsegs⟩ := h
  by_cases hk : 0 < k ∧ k < 2 ^ 32
  · rw [if_pos hk, Memory.seg?_ne_zero m (ofNat_ne_zero hk.1 hk.2), toNat_ofNat_of_lt hk.2]
  · rw [if_neg hk]
    refine Option.eq_none_iff_forall_ne_some.2 fun g hf => hk ?_
    obtain ⟨hpos, hlt, -⟩ := hsegs _ (Cells.mem_of_find? hf)
    exact ⟨hpos, hlt⟩

/-- Settles O33: alike in every read, the two hold the same segment under every identifier, and so list the same. -/
theorem canonicalMemoriesThatReadAlikeAreEqual : Obligations.CanonicalMemoriesThatReadAlikeAreEqual := by
  intro m n hm hn hread
  have hseg : ∀ id, m.seg? id = n.seg? id := fun id => Memory.seg?_eq_of_read_eq hm hn (hread id)
  have hprogram : m.program = n.program := Option.some.inj (hseg 0#32)
  have hsegs : m.segs = n.segs := Cells.eq_of_find?_eq hm.2.1 hn.2.1 fun k => by
    rw [Memory.find?_segs_eq hm, Memory.find?_segs_eq hn, hseg]
  cases m
  cases n
  rw [Memory.mk.injEq]
  exact ⟨hprogram, hsegs⟩

end Sys2Proof.Machine
end

section
/-! SUPPORT. What a step can do to the run state, the pc, the registers, the lengths of segments and the streams, each
said once of an instruction's effect (10_state.md R21, R25 to R28, R35; 20_memory.md R52; 60_exceptions.md R221, R231). -/

namespace Sys2Proof.Machine

/-! ## Faults -/

theorem Memory.read_eq_error {m : Memory} {id off : Word} {k : FaultKind} (h : m.read id off = .error k) :
    k ∈ [FaultKind.unmappedSegmentAccess, .outOfBoundsOffset] := by
  unfold Memory.read at h
  split at h
  · cases h
    decide
  · split at h <;> cases h
    decide

theorem Memory.free_eq_error {m : Memory} {id : Word} {k : FaultKind} (h : m.free id = .error k) :
    k ∈ [FaultKind.freeOfSegmentZero, .unmappedSegmentAccess] := by
  unfold Memory.free at h
  split at h
  · cases h
    decide
  · split at h <;> cases h
    decide

theorem Memory.loadProgram_eq_error {m : Memory} {id : Word} {k : FaultKind} (h : m.loadProgram id = .error k) :
    k = .unmappedSegmentAccess := by
  unfold Memory.loadProgram at h
  split at h <;> cases h
  rfl

theorem State.free_eq_error {s : State} {id : Word} {k : FaultKind} (h : s.free id = .error k) :
    s.mem.free id = .error k := by
  cases hm : s.mem.free id with
  | error j => exact congrArg _ (Except.error.inj ((State.free_of_mem_error hm).symm.trans h))
  | ok m => cases (State.free_of_mem_ok hm).symm.trans h

/-- Everything an instruction can do to the run state: keep it, raise one of its faults, or halt. -/
theorem Effect.run_cases {s t : State} {i : Instr} (h : Effect s i t) :
    t.run = s.run ∨ (∃ k ∈ faultKinds s.cfg.eofPolicy i, t = s.raise k) ∨ (i = .halt ∧ t = s.halt) := by
  cases h with
  | sloadFault a b c k hr => exact .inr (.inl ⟨k, Memory.read_eq_error hr, rfl⟩)
  | sstoreFault a b c k hw =>
    exact .inr (.inl ⟨k, Memory.read_eq_error ((Memory.write_eq_error_iff ..).1 hw), rfl⟩)
  | divFault a b c h0 => exact .inr (.inl ⟨_, List.mem_singleton_self _, rfl⟩)
  | mapFault b c k ha => exact .inr (.inl ⟨k, List.mem_singleton.2 (State.allocWithDraw_eq_error ha), rfl⟩)
  | unmapFault c k hf => exact .inr (.inl ⟨k, Memory.free_eq_error (State.free_eq_error hf), rfl⟩)
  | outFault c hgt => exact .inr (.inl ⟨_, List.mem_singleton_self _, rfl⟩)
  | inFault c he hp => exact .inr (.inl ⟨_, by simp [faultKinds, hp], rfl⟩)
  | loadpFault b c k hl => exact .inr (.inl ⟨k, List.mem_singleton.2 (Memory.loadProgram_eq_error hl), rfl⟩)
  | halt => exact .inr (.inr ⟨rfl, rfl⟩)
  | map b c id u ha =>
    obtain ⟨book, d, rfl, -, -⟩ := State.allocWithDraw_frame ha
    exact .inl rfl
  | unmap c u hf =>
    obtain ⟨m, -, rfl⟩ := State.free_frame hf
    exact .inl rfl
  | _ => exact .inl rfl

/-- Settles O39: of the three things that can happen to the run state, only a listed fault gives `Faulted`. -/
theorem eachInstructionRaisesOnlyItsFaults : Obligations.EachInstructionRaisesOnlyItsFaults := by
  intro i s t k hrun hex hfault
  obtain hkeep | ⟨j, hj, rfl⟩ | ⟨-, rfl⟩ := (effect_of_exec hex).run_cases
  · cases hfault.symm.trans (hkeep.trans hrun)
  · cases hfault
    exact hj
  · cases hfault

/-- A step that leaves `Running` changes the run state alone. -/
theorem step_eq_of_run_ne_running {s t : State} (h : step s = .next t) (hrun : t.run ≠ .running) :
    t = { s with run := t.run } := by
  obtain ⟨r, rfl, -, -⟩ | ⟨-, i, -, he⟩ := step_eq_next_cases h
  · rfl
  · obtain hkeep | ⟨k, -, rfl⟩ | ⟨-, rfl⟩ := he.run_cases
    · exact absurd (hkeep.trans (step_eq_next h).1) hrun
    · rfl
    · rfl

/-- Settles O38: a fault leaves `Running`. -/
theorem faultsArePrecise : Obligations.FaultsArePrecise := by
  intro s t k h hfault
  have ht := step_eq_of_run_ne_running h (by simp [hfault])
  rwa [hfault] at ht

/-- Settles O40: halting leaves `Running`, and of the steps that run an instruction only a HALT halts. -/
theorem haltedIsEnteredByHaltOrAtTheEnd : Obligations.HaltedIsEnteredByHaltOrAtTheEnd := by
  intro s t h hhalt
  have ht := step_eq_of_run_ne_running h (by simp [hhalt])
  rw [hhalt] at ht
  refine ⟨ht, ?_⟩
  obtain ⟨r, rfl, -, hend⟩ | ⟨hlt, i, hd, he⟩ := step_eq_next_cases h
  · exact .inl (hend hhalt)
  · obtain hkeep | ⟨k, -, rfl⟩ | ⟨rfl, -⟩ := he.run_cases
    · cases hhalt.symm.trans (hkeep.trans (step_eq_next h).1)
    · cases hhalt
    · exact .inr ⟨s.fetchWord, State.read_pc hlt, hd⟩

/-! ## The pc -/

/-- Everything an instruction that leaves the machine running can do to the pc. -/
theorem Effect.pc_cases {s t : State} {i : Instr} (h : Effect s i t) (hrun : t.run = .running) :
    (∃ b c, i = .loadp b c ∧ t.pc = s.x c) ∨
    ((∀ b c, i ≠ .loadp b c) ∧ t.pc = s.pc + 1#32) ∨
    ((∃ c, i = .inp c) ∧ s.input.poll = .hold ∧ t = s) := by
  cases h with
  | loadp b c m hl => exact .inl ⟨b, c, rfl, rfl⟩
  | inHold c hp => exact .inr (.inr ⟨⟨c, rfl⟩, hp, rfl⟩)
  | map b c id u ha =>
    obtain ⟨book, d, rfl, -, -⟩ := State.allocWithDraw_frame ha
    exact .inr (.inl ⟨nofun, rfl⟩)
  | unmap c u hf =>
    obtain ⟨m, -, rfl⟩ := State.free_frame hf
    exact .inr (.inl ⟨nofun, rfl⟩)
  | halt | sloadFault | sstoreFault | divFault | mapFault | unmapFault | outFault | inFault | loadpFault =>
    cases hrun
  | _ => exact .inr (.inl ⟨nofun, rfl⟩)

/-- A pc below the program's length has a successor: the advance does not wrap (R26). -/
theorem succ_toNat_of_lt {pc len : Word} (h : pc < len) : (pc + 1#32).toNat = pc.toNat + 1 := by
  rw [BitVec.lt_def] at h
  rw [BitVec.toNat_add, show (1#32).toNat = 1 from rfl]
  exact Nat.mod_eq_of_lt (Nat.lt_of_le_of_lt h len.isLt)

/-- Settles O41: a step that leaves `Running` keeps the pc, and one that does not runs an instruction. -/
theorem pcAdvancesByOneOrIsLoaded : Obligations.PcAdvancesByOneOrIsLoaded := by
  intro s t h
  refine ⟨fun hrun => by rw [step_eq_of_run_ne_running h hrun], fun hrun => ?_⟩
  obtain ⟨r, rfl, hr, -⟩ | ⟨hlt, i, hd, he⟩ := step_eq_next_cases h
  · exact absurd hrun hr
  · refine ⟨s.fetchWord, i, State.read_pc hlt, hd, ?_⟩
    obtain ⟨b, c, rfl, hpc⟩ | ⟨hnot, hpc⟩ | ⟨⟨c, rfl⟩, hhold, hsame⟩ := he.pc_cases hrun
    · refine ⟨fun b' c' e => ?_, fun hnot => absurd rfl (hnot b c)⟩
      cases e
      exact hpc
    · exact ⟨fun b c e => absurd e (hnot b c), fun _ => .inl (hpc ▸ succ_toNat_of_lt hlt)⟩
    · exact ⟨nofun, fun _ => .inr ⟨⟨c, rfl⟩, hhold, hsame⟩⟩

/-! ## The destination register -/

theorem Effect.x_of_ne_destination {s t : State} {i : Instr} (h : Effect s i t) {r : Reg}
    (hr : destination i ≠ some r) : t.x r = s.x r := by
  have hne : ∀ {a : Reg}, destination i = some a → r ≠ a := fun hi e => hr (e ▸ hi)
  cases h with
  | map b c id u ha =>
    obtain ⟨book, d, rfl, -, -⟩ := State.allocWithDraw_frame ha
    exact State.setX_x_ne _ id (hne rfl)
  | unmap c u hf =>
    obtain ⟨m, -, rfl⟩ := State.free_frame hf
    rfl
  | cmovTaken | sload | add | mul | div | nand | inByte | inEof | loadv => exact State.setX_x_ne s _ (hne rfl)
  | _ => rfl

/-- Settles O42, for every effect. -/
theorem onlyTheDestinationRegisterChanges : Obligations.OnlyTheDestinationRegisterChanges :=
  fun _ _ _ _ hex hr => (effect_of_exec hex).x_of_ne_destination hr

/-! ## Segment lengths -/

theorem Memory.len?_of_unmapped {m : Memory} {id : Word} (h : m.mapped id = false) : m.len? id = none :=
  congrArg (Option.map Segment.len) ((Memory.mapped_eq_false_iff m id).1 h)

/-- Everything an instruction can do to the length of a segment: MAP gives one to an identifier that had none, UNMAP
takes it away, LOADP replaces that of segment 0. -/
theorem Effect.len?_cases {s t : State} {i : Instr} (h : Effect s i t) (hs : s.Inv) (id : Word) :
    t.mem.len? id = s.mem.len? id ∨
    (id ≠ 0#32 ∧ (s.mem.len? id = none ∨ t.mem.len? id = none)) ∨
    (id = 0#32 ∧ ∃ b c, i = .loadp b c) := by
  cases h with
  | sstore a b c m hw => exact .inl (Memory.write_len? hw id)
  | map b c j u ha =>
    obtain ⟨-, ⟨-, -, hbook⟩, -⟩ := hs
    obtain ⟨hj, hfresh⟩ := State.allocatable_ne_zero (State.allocatable_of_allocWithDraw hbook ha)
    obtain ⟨book, d, rfl, -, -⟩ := State.allocWithDraw_frame ha
    by_cases hid : id = j
    · subst hid
      exact .inr (.inl ⟨hj, .inl (Memory.len?_of_unmapped hfresh)⟩)
    · exact .inl (Memory.len?_congr (Memory.setSeg_seg?_ne s.mem _ hid))
  | unmap c u hf =>
    obtain ⟨m, hm, rfl⟩ := State.free_frame hf
    by_cases hid : id = s.x c
    · subst hid
      exact .inr (.inl ⟨(Memory.free_eq_ok hm).1, .inr (Memory.len?_of_unmapped (Memory.free_mapped_self hm))⟩)
    · exact .inl (Memory.len?_congr (Memory.free_seg?_ne hm hid))
  | loadp b c m hl =>
    by_cases hid : id = 0#32
    · exact .inr (.inr ⟨hid, b, c, rfl⟩)
    · exact .inl (Memory.len?_congr (Memory.loadProgram_seg?_ne hl hid))
  | _ => exact .inl rfl

/-- Settles O45: an identifier with a length before and after keeps it, and segment 0's is changed by LOADP alone. -/
theorem segmentLengthsAreFixedAtCreation : Obligations.SegmentLengthsAreFixedAtCreation := by
  intro s t hs h
  obtain ⟨r, rfl, -, -⟩ | ⟨hlt, i, hd, he⟩ := step_eq_next_cases h
  · exact ⟨fun id n k _ hn hk => Option.some.inj (hk.symm.trans hn), fun hne => absurd rfl hne⟩
  · refine ⟨fun id n k hid hn hk => ?_, fun hne => ?_⟩
    · obtain hkeep | ⟨-, hnone | hnone⟩ | ⟨h0, -⟩ := he.len?_cases hs id
      · exact Option.some.inj (hk.symm.trans (hkeep.trans hn))
      · cases hnone.symm.trans hn
      · cases hnone.symm.trans hk
      · exact absurd h0 hid
    · obtain hkeep | ⟨h0, -⟩ | ⟨-, b, c, rfl⟩ := he.len?_cases hs 0#32
      · exact absurd (Option.some.inj hkeep) hne
      · exact absurd rfl h0
      · exact ⟨s.fetchWord, b, c, State.read_pc hlt, hd⟩

/-! ## The streams -/

/-- Everything an instruction can do to the output: OUT alone appends to it. -/
theorem Effect.output_cases {s t : State} {i : Instr} (h : Effect s i t) :
    t.output = s.output ∨ ∃ c, i = .out c ∧ t.output = s.output ++ [lowByte (s.x c)] := by
  cases h with
  | out c hle => exact .inr ⟨c, rfl, rfl⟩
  | map b c id u ha =>
    obtain ⟨book, d, rfl, -, -⟩ := State.allocWithDraw_frame ha
    exact .inl rfl
  | unmap c u hf =>
    obtain ⟨m, -, rfl⟩ := State.free_frame hf
    exact .inl rfl
  | _ => exact .inl rfl

/-- Settles O47: read off the cases of the output and of the input. -/
theorem onlyInAndOutTouchTheStreams : Obligations.OnlyInAndOutTouchTheStreams := by
  intro s t h
  obtain ⟨hbytes, -, hseen⟩ := step_input_eq h
  obtain ⟨r, rfl, -, -⟩ | ⟨hlt, i, hd, he⟩ := step_eq_next_cases h
  · exact ⟨.inl rfl, .inl rfl, hbytes, hseen⟩
  · refine ⟨he.output_cases.imp_right fun ⟨c, hi, hout⟩ => ?_, he.input_cases.imp_right fun ⟨c, hi, _⟩ => ?_,
      hbytes, hseen⟩
    · exact ⟨s.fetchWord, c, State.read_pc hlt, hi ▸ hd, hout⟩
    · exact ⟨s.fetchWord, c, State.read_pc hlt, hi ▸ hd⟩

end Sys2Proof.Machine
end

section
/-! SUPPORT. What the machine does not depend on: registers an instruction does not read (10_state.md table R23), the
output history (46_io.md R185), and under `lifo` the identifier draws (40_execution_cycle.md R130; log 6). An instruction
is replayed in a state that differs in those alone, and the same happens there. -/

namespace Sys2Proof.Machine

/-! ## The same change from two states -/

/-- `s'` is `s` with other registers, another output history and another draw counter. -/
def State.Variant (s s' : State) : Prop := s' = { s with regs := s'.regs, output := s'.output, draws := s'.draws }

theorem State.Variant.eq {s s' : State} (h : s.Variant s') :
    s' = { s with regs := s'.regs, output := s'.output, draws := s'.draws } := h

/-- From `s'` to `t'` the same happened as from `s` to `t`: each register ends alike or is untouched in both, the same
bytes are appended, the draw counter moves as far, and the rest ends alike. -/
structure SameChange (s s' t t' : State) : Prop where
  rest : t.Variant t'
  regs : ∀ r, t'.x r = t.x r ∨ (t.x r = s.x r ∧ t'.x r = s'.x r)
  output : ∃ tail, t.output = s.output ++ tail ∧ t'.output = s'.output ++ tail
  draws : ∃ n, t.draws = s.draws + n ∧ t'.draws = s'.draws + n

theorem State.Variant.sameChange {s s' : State} (h : s.Variant s') : SameChange s s' s s' :=
  ⟨h, fun _ => .inr ⟨rfl, rfl⟩, ⟨[], by simp, by simp⟩, ⟨0, rfl, rfl⟩⟩

namespace SameChange

variable {s s' t t' : State} (h : SameChange s s' t t')
include h

theorem setX {v v' : Word} (hv : v' = v) (a : Reg) : SameChange s s' (t.setX a v) (t'.setX a v') := by
  subst hv
  refine ⟨congrArg (State.setX · a v') h.rest, fun r => ?_, h.output, h.draws⟩
  by_cases hr : r = a
  · subst hr
    exact .inl (by rw [State.setX_x_self, State.setX_x_self])
  · rw [State.setX_x_ne t v' hr, State.setX_x_ne t' v' hr]
    exact h.regs r

theorem outByte {b b' : Byte} (hb : b' = b) : SameChange s s' (t.outByte b) (t'.outByte b') := by
  subst hb
  obtain ⟨tail, ht, ht'⟩ := h.output
  exact ⟨congrArg (State.outByte · b') h.rest, h.regs, ⟨tail ++ [b'], by simp [ht], by simp [ht']⟩, h.draws⟩

theorem advance : SameChange s s' t.advance t'.advance :=
  ⟨congrArg State.advance h.rest, h.regs, h.output, h.draws⟩

theorem halt : SameChange s s' t.halt t'.halt := ⟨congrArg State.halt h.rest, h.regs, h.output, h.draws⟩

theorem raise (k : FaultKind) : SameChange s s' (t.raise k) (t'.raise k) :=
  ⟨congrArg (State.raise · k) h.rest, h.regs, h.output, h.draws⟩

theorem jump {v v' : Word} (hv : v' = v) : SameChange s s' (t.jump v) (t'.jump v') :=
  hv ▸ ⟨congrArg (State.jump · v') h.rest, h.regs, h.output, h.draws⟩

theorem withMem (m : Memory) : SameChange s s' (t.withMem m) (t'.withMem m) :=
  ⟨congrArg (State.withMem · m) h.rest, h.regs, h.output, h.draws⟩

theorem withInput (i : InputStream) : SameChange s s' (t.withInput i) (t'.withInput i) :=
  ⟨congrArg (State.withInput · i) h.rest, h.regs, h.output, h.draws⟩

theorem regs_eq (hs : s'.regs = s.regs) : t'.regs = t.regs := by
  refine RegFile.ext_get fun r => ?_
  obtain hr | ⟨ht, ht'⟩ := h.regs r
  · exact hr
  · exact ht'.trans ((congrArg (RegFile.get · r) hs).trans ht.symm)

theorem output_eq (hs : s'.output = s.output) : t'.output = t.output := by
  obtain ⟨tail, ht, ht'⟩ := h.output
  rw [ht, ht', hs]

theorem draws_eq (hs : s'.draws = s.draws) : t'.draws = t.draws := by
  obtain ⟨n, ht, ht'⟩ := h.draws
  rw [ht, ht', hs]

end SameChange

/-! ## Alloc and Free read none of the three, but for the draw under `any` -/

/-- The two registers an instruction of two sources reads. -/
theorem eq_on_pair {s s' : State} {b c : Reg} (h : ∀ r ∈ [b, c], s'.x r = s.x r) :
    s'.x b = s.x b ∧ s'.x c = s.x c :=
  ⟨h b (by simp), h c (by simp)⟩

section
variable {s s' : State} (hs : s.Variant s')
include hs

theorem State.Variant.alloc {n id : Word} {u : State} (hd : s'.draws = s.draws ∨ s.cfg.allocPolicy = .lifo)
    (ha : s.alloc n = .ok (id, u)) : ∃ u', s'.alloc n = .ok (id, u') ∧ SameChange s s' u u' := by
  have hsame := hs.sameChange
  obtain ⟨f, o, d, rfl⟩ : ∃ f o d, s' = { s with regs := f, output := o, draws := d } := ⟨_, _, _, hs⟩
  obtain ⟨hp, hdrawn, rfl⟩ | ⟨book, hp, hl, rfl⟩ := State.allocWithDraw_eq_ok ha
  · obtain rfl : d = s.draws := hd.resolve_right fun hl => by cases hp.symm.trans hl
    exact ⟨_, State.allocWithDraw_of_any (s := { s with regs := f, output := o }) hp hdrawn n,
      rfl, hsame.regs, hsame.output, ⟨1, rfl, rfl⟩⟩
  · exact ⟨_, State.allocWithDraw_of_lifo (s := { s with regs := f, output := o, draws := d }) hp hl n _,
      rfl, hsame.regs, hsame.output, hsame.draws⟩

theorem State.Variant.alloc_error {n : Word} {k : FaultKind} (hd : s'.draws = s.draws ∨ s.cfg.allocPolicy = .lifo)
    (ha : s.alloc n = .error k) : s'.alloc n = .error k := by
  obtain ⟨f, o, d, rfl⟩ : ∃ f o d, s' = { s with regs := f, output := o, draws := d } := ⟨_, _, _, hs⟩
  obtain rfl := State.allocWithDraw_eq_error ha
  obtain ⟨hp, hdrawn⟩ | ⟨hp, hl⟩ := State.allocWithDraw_eq_error_cases ha
  · obtain rfl : d = s.draws := hd.resolve_right fun hl => by cases hp.symm.trans hl
    exact State.allocWithDraw_of_any_none (s := { s with regs := f, output := o }) hp hdrawn n
  · exact State.allocWithDraw_of_lifo_none (s := { s with regs := f, output := o, draws := d }) hp hl n _

theorem State.Variant.free {id : Word} {u : State} (hf : s.free id = .ok u) :
    ∃ u', s'.free id = .ok u' ∧ SameChange s s' u u' := by
  have hsame := hs.sameChange
  obtain ⟨f, o, d, rfl⟩ : ∃ f o d, s' = { s with regs := f, output := o, draws := d } := ⟨_, _, _, hs⟩
  obtain ⟨m, hm, rfl⟩ := State.free_frame hf
  exact ⟨_, State.free_of_mem_ok (s := { s with regs := f, output := o, draws := d }) hm,
    rfl, hsame.regs, hsame.output, hsame.draws⟩

/-- An instruction whose sources hold the same in both states does the same in both. -/
theorem State.Variant.replay {i : Instr} {t : State} (h : Effect s i t) (hsrc : ∀ r ∈ sources i, s'.x r = s.x r)
    (hd : s'.draws = s.draws ∨ s.cfg.allocPolicy = .lifo) : ∃ t', Effect s' i t' ∧ SameChange s s' t t' := by
  have hsame := hs.sameChange
  have hmem : s'.mem = s.mem := by rw [hs.eq]
  have hinput : s'.input = s.input := by rw [hs.eq]
  have hcfg : s'.cfg = s.cfg := by rw [hs.eq]
  cases h with
  | cmovTaken a b c h =>
    obtain ⟨hb, hc⟩ := eq_on_pair hsrc
    exact ⟨_, .cmovTaken a b c (by rwa [hc]), (hsame.setX hb a).advance⟩
  | cmovSkipped a b c h =>
    obtain ⟨-, hc⟩ := eq_on_pair hsrc
    exact ⟨_, .cmovSkipped a b c (by rwa [hc]), hsame.advance⟩
  | sload a b c v h =>
    obtain ⟨hb, hc⟩ := eq_on_pair hsrc
    exact ⟨_, .sload a b c v (by rwa [hmem, hb, hc]), (hsame.setX rfl a).advance⟩
  | sloadFault a b c k h =>
    obtain ⟨hb, hc⟩ := eq_on_pair hsrc
    exact ⟨_, .sloadFault a b c k (by rwa [hmem, hb, hc]), hsame.raise k⟩
  | sstore a b c m h =>
    obtain ⟨ha, hbc⟩ := List.forall_mem_cons.1 hsrc
    obtain ⟨hb, hc⟩ := eq_on_pair hbc
    exact ⟨_, .sstore a b c m (by rwa [hmem, ha, hb, hc]), (hsame.withMem m).advance⟩
  | sstoreFault a b c k h =>
    obtain ⟨ha, hbc⟩ := List.forall_mem_cons.1 hsrc
    obtain ⟨hb, hc⟩ := eq_on_pair hbc
    exact ⟨_, .sstoreFault a b c k (by rwa [hmem, ha, hb, hc]), hsame.raise k⟩
  | add a b c =>
    obtain ⟨hb, hc⟩ := eq_on_pair hsrc
    exact ⟨_, .add a b c, (hsame.setX (congrArg₂ aluAdd hb hc) a).advance⟩
  | mul a b c =>
    obtain ⟨hb, hc⟩ := eq_on_pair hsrc
    exact ⟨_, .mul a b c, (hsame.setX (congrArg₂ aluMul hb hc) a).advance⟩
  | div a b c h =>
    obtain ⟨hb, hc⟩ := eq_on_pair hsrc
    exact ⟨_, .div a b c (by rwa [hc]), (hsame.setX (congrArg₂ aluDiv hb hc) a).advance⟩
  | divFault a b c h =>
    obtain ⟨-, hc⟩ := eq_on_pair hsrc
    exact ⟨_, .divFault a b c (by rwa [hc]), hsame.raise _⟩
  | nand a b c =>
    obtain ⟨hb, hc⟩ := eq_on_pair hsrc
    exact ⟨_, .nand a b c, (hsame.setX (congrArg₂ aluNand hb hc) a).advance⟩
  | halt => exact ⟨_, .halt, hsame.halt⟩
  | map b c id u h =>
    have hc := List.forall_mem_singleton.1 hsrc
    obtain ⟨u', hu', hsame'⟩ := hs.alloc hd h
    exact ⟨_, .map b c id u' (by rwa [hc]), (hsame'.setX rfl b).advance⟩
  | mapFault b c k h =>
    have hc := List.forall_mem_singleton.1 hsrc
    exact ⟨_, .mapFault b c k (by rw [hc]; exact hs.alloc_error hd h), hsame.raise k⟩
  | unmap c u h =>
    have hc := List.forall_mem_singleton.1 hsrc
    obtain ⟨u', hu', hsame'⟩ := hs.free h
    exact ⟨_, .unmap c u' (by rwa [hc]), hsame'.advance⟩
  | unmapFault c k h =>
    have hc := List.forall_mem_singleton.1 hsrc
    have hf : s'.mem.free (s'.x c) = .error k := by rw [hmem, hc]; exact State.free_eq_error h
    exact ⟨_, .unmapFault c k (State.free_of_mem_error hf), hsame.raise k⟩
  | out c h =>
    have hc := List.forall_mem_singleton.1 hsrc
    exact ⟨_, .out c (by rwa [hc]), (hsame.outByte (congrArg lowByte hc)).advance⟩
  | outFault c h =>
    have hc := List.forall_mem_singleton.1 hsrc
    exact ⟨_, .outFault c (by rwa [hc]), hsame.raise _⟩
  | inByte c b h =>
    refine ⟨_, .inByte c b (by rwa [hinput]), ?_⟩
    rw [hinput]
    exact ((hsame.setX rfl c).withInput _).advance
  | inEof c h hp =>
    refine ⟨_, .inEof c (by rwa [hinput]) (by rwa [hcfg]), ?_⟩
    rw [hinput]
    exact ((hsame.setX rfl c).withInput _).advance
  | inFault c h hp => exact ⟨_, .inFault c (by rwa [hinput]) (by rwa [hcfg]), hsame.raise _⟩
  | inHold c h => exact ⟨_, .inHold c (by rwa [hinput]), hsame⟩
  | loadp b c m h =>
    obtain ⟨hb, hc⟩ := eq_on_pair hsrc
    exact ⟨_, .loadp b c m (by rwa [hmem, hb]), (hsame.withMem m).jump hc⟩
  | loadpFault b c k h =>
    obtain ⟨hb, -⟩ := eq_on_pair hsrc
    exact ⟨_, .loadpFault b c k (by rwa [hmem, hb]), hsame.raise k⟩
  | loadv rl imm => exact ⟨_, .loadv rl imm, (hsame.setX rfl rl).advance⟩

end

/-! ## A step in a variant of the state -/

/-- A step is taken in a variant with the same registers as well, and does the same there. -/
theorem step_replay {s s' t : State} (h : step s = .next t) (hs : s.Variant s') (hregs : s'.regs = s.regs)
    (hd : s'.draws = s.draws ∨ s.cfg.allocPolicy = .lifo) : ∃ t', step s' = .next t' ∧ SameChange s s' t t' := by
  have hsame := hs.sameChange
  have hx : ∀ r, s'.x r = s.x r := fun r => congrArg (RegFile.get · r) hregs
  have hrun : s'.run = s.run := by rw [hs.eq]
  have hpc : s'.pc = s.pc := by rw [hs.eq]
  have hlen : s'.mem.progLen = s.mem.progLen := by rw [hs.eq]
  have hword : s'.fetchWord = s.fetchWord := by rw [hs.eq]; rfl
  obtain ⟨hr, hcases⟩ := step_eq_next h
  rw [← hrun] at hr
  rw [← hpc, ← hlen, ← hword] at hcases
  obtain ⟨hend, rfl⟩ | ⟨hgt, rfl⟩ | ⟨hlt, ⟨j, hj⟩, rfl⟩ | ⟨hlt, i, hi, hex⟩ := hcases
  · exact ⟨_, step_endOfProgram hr hend, hsame.halt⟩
  · exact ⟨_, step_fetchFault hr hgt, hsame.raise _⟩
  · exact ⟨_, step_illegal hr hlt hj, hsame.raise _⟩
  · obtain ⟨t', ht', hsame'⟩ := hs.replay (effect_of_exec hex) (fun r _ => hx r) hd
    exact ⟨t', (step_instr hr hlt hi).trans (exec_of_effect ht'), hsame'⟩

/-- A step that is absent is absent for a reason the run state alone gives (R28). -/
theorem step_eq_fault_iff (s : State) (k : Fault) :
    step s = .fault k ↔
      (s.run = .halted ∧ k = .noStepHalted) ∨ (∃ j, s.run = .faulted j ∧ k = .noStepFaulted j) := by
  unfold step
  cases hr : s.run with
  | halted => simp [eq_comm]
  | faulted j => simp [eq_comm]
  | running =>
    simp only [reduceCtorEq, false_and, exists_false, or_self, iff_false]
    cases s.fetch with
    | endOfProgram => nofun
    | fault j => nofun
    | instr i =>
      obtain ⟨t, ht, -⟩ := exec_effect i s
      simp [ht]

/-! ## The obligations -/

/-- Settles O43: run with other registers where it does not read, an instruction is replayed. -/
theorem onlyTheSourceRegistersAreRead : Obligations.OnlyTheSourceRegistersAreRead := by
  intro i s t u f hf ht hu
  have hs : s.Variant { s with regs := f } := rfl
  obtain ⟨t', he, hsame⟩ := hs.replay (effect_of_exec ht) hf (.inl rfl)
  obtain rfl : t' = u := Host.Outcome.next.inj ((exec_of_effect he).symm.trans hu)
  refine ⟨?_, hsame.regs⟩
  calc t' = { t with regs := t'.regs, output := t'.output, draws := t'.draws } := hsame.rest
    _ = { t with regs := t'.regs } := by rw [hsame.output_eq rfl, hsame.draws_eq rfl]

/-- Settles O48: a step is replayed with the other history, and a terminal state stays terminal. -/
theorem outputHistoryIsNeverRead : Obligations.OutputHistoryIsNeverRead := by
  intro s o
  refine ⟨fun t h => ?_, fun k h => ?_⟩
  · have hs : s.Variant { s with output := o } := rfl
    obtain ⟨t', ht', hsame⟩ := step_replay h hs rfl (.inl rfl)
    obtain ⟨tail, hout, hout'⟩ := hsame.output
    refine ⟨tail, hout, ht'.trans (congrArg _ ?_)⟩
    calc t' = { t with regs := t'.regs, output := t'.output, draws := t'.draws } := hsame.rest
      _ = { t with output := o ++ tail } := by rw [hsame.regs_eq rfl, hsame.draws_eq rfl, hout']
  · exact (step_eq_fault_iff ..).2 ((step_eq_fault_iff s k).1 h)

/-- An instruction under `lifo` draws no identifier. -/
theorem Effect.draws_of_lifo {s t : State} {i : Instr} (h : Effect s i t) (hp : s.cfg.allocPolicy = .lifo) :
    t.draws = s.draws := by
  cases h with
  | map b c id u ha =>
    obtain ⟨book, d, rfl, -, hd⟩ := State.allocWithDraw_frame ha
    exact hd hp
  | unmap c u hf =>
    obtain ⟨m, -, rfl⟩ := State.free_frame hf
    rfl
  | _ => rfl

/-- Settles O51: the counter is not moved, and a step is replayed with any value of it. -/
theorem lifoStepsIgnoreTheDraws : Obligations.LifoStepsIgnoreTheDraws := by
  intro s d hp t h
  have hkeep : t.draws = s.draws := by
    obtain ⟨r, rfl, -, -⟩ | ⟨-, i, -, he⟩ := step_eq_next_cases h
    · rfl
    · exact he.draws_of_lifo hp
  have hs : s.Variant { s with draws := d } := rfl
  obtain ⟨t', ht', hsame⟩ := step_replay h hs rfl (.inr hp)
  obtain ⟨n, hn, hn'⟩ := hsame.draws
  obtain rfl : n = 0 := by omega
  refine ⟨hkeep, ht'.trans (congrArg _ ?_)⟩
  calc t' = { t with regs := t'.regs, output := t'.output, draws := t'.draws } := hsame.rest
    _ = { t with draws := d } := by rw [hsame.regs_eq rfl, hsame.output_eq rfl, hn']; rfl

end Sys2Proof.Machine
end

section
/-! SUPPORT. Which instruction a step runs (40_execution_cycle.md R120 to R124; 20_memory.md R76; log 13), and the terminal
states (10_state.md R28). -/

namespace Sys2Proof.Machine

/-! ## The fetched word -/

/-- A word read at (0, pc) passes the tests of R121 and is the one fetched. -/
theorem State.fetch_of_read {s : State} {w : Word} (h : s.mem.read 0#32 s.pc = .ok w) :
    s.pc < s.mem.progLen ∧ s.fetchWord = w := by
  obtain ⟨g, hg, hlt, hw⟩ := (Memory.read_eq_ok_iff ..).1 h
  cases hg
  exact ⟨hlt, hw⟩

/-- Settles O34: a word that reads is the fetched one. -/
theorem stepRunsTheFetchedInstruction : Obligations.StepRunsTheFetchedInstruction := by
  intro s w i hrun hread hd
  obtain ⟨hlt, rfl⟩ := State.fetch_of_read hread
  exact step_instr hrun hlt hd

/-- Settles O36: opcodes 14 and 15 are those the decoder rejects. -/
theorem illegalWordFaultsWhenFetched : Obligations.IllegalWordFaultsWhenFetched := by
  intro s w hrun hread hop
  obtain ⟨hlt, rfl⟩ := State.fetch_of_read hread
  obtain ⟨hlegal, -⟩ | ⟨-, hd⟩ := decode_legal_or_illegal s.fetchWord
  · omega
  · exact step_illegal hrun hlt hd

/-- Settles O37: the run state alone gives the reason a step is absent. -/
theorem terminalStatesTakeNoStep : Obligations.TerminalStatesTakeNoStep := fun s =>
  ⟨fun h => (step_eq_fault_iff s _).2 (.inl ⟨h, rfl⟩), fun k h => (step_eq_fault_iff s _).2 (.inr ⟨k, h, rfl⟩)⟩

/-! ## A store into the program (R76) -/

/-- Settles O46: the word stored reads back, so when the next pc is its offset it is the word fetched. -/
theorem storesIntoTheProgramAreSeenByTheNextFetch : Obligations.StoresIntoTheProgramAreSeenByTheNextFetch := by
  intro s w a b c hrun hread hd ha hb
  have hw := Memory.write_of_lt_len (Memory.seg?_zero s.mem) hb (s.x c)
  have hback := Memory.write_read_self hw
  have hstep := (stepRunsTheFetchedInstruction s w _ hrun hread hd).trans
    (exec_of_effect (.sstore a b c _ (by rw [ha]; exact hw)))
  refine ⟨_, hstep, hrun, rfl, hback, fun i hnext hi => ?_⟩
  refine stepRunsTheFetchedInstruction _ (s.x c) i hrun ?_ hi
  rw [State.advance_pc, State.withMem_pc, ← hnext]
  exact hback

/-! ## A placed word (log 13) -/

theorem State.placeOffset_ne_last (s : State) : s.placeOffset ≠ 0xFFFFFFFF#32 := by
  unfold State.placeOffset
  split
  · decide
  · assumption

/-- Placing a word makes the segment long enough to hold it. -/
theorem Segment.lt_place_len (g : Segment) {off : Word} (w : Word) (h : off ≠ 0xFFFFFFFF#32) :
    off < (g.place off w).len := by
  simp only [Segment.place, Segment.setWord_len]
  split
  · assumption
  · have hne : off.toNat ≠ 0xFFFFFFFF := fun e => h (BitVec.eq_of_toNat_eq e)
    have hlast : off < 0xFFFFFFFF#32 := BitVec.lt_def.2 (Nat.lt_of_le_of_ne (Nat.le_pred_of_lt off.isLt) hne)
    rw [BitVec.lt_def, succ_toNat_of_lt hlast]
    exact Nat.lt_succ_self _

theorem decode_of_decodeTableWord {nbits w : Nat} {i : Instr} (h : decodeTableWord nbits w = some i) :
    decode (BitVec.ofNat 32 (w % 2 ^ nbits)) = .ok i := by
  unfold decodeTableWord at h
  split at h
  · next j hj => rwa [← Option.some.inj h]
  · cases h

/-- Settles O59: the placed word stands at the pc, below the program's length, and the machine is running. -/
theorem aPlacedWordIsTheNextInstruction : Obligations.APlacedWordIsTheNextInstruction := by
  intro s w i h
  have hword : (s.withFetchWord 32 w).fetchWord = BitVec.ofNat 32 (w % 2 ^ 32) := Segment.setWord_word_self ..
  refine step_instr rfl (Segment.lt_place_len _ _ s.placeOffset_ne_last) ?_
  rw [hword]
  exact decode_of_decodeTableWord h

end Sys2Proof.Machine
end

section
/-! SUPPORT. LOADV (48_load_value.md R211) and the conditional branch made with it (47_load_program.md R204). -/

namespace Sys2Proof.Machine

/-! ## The zero-extended immediate (30_encoding.md R96) -/

theorem zextImmediate_toNat (imm : Word) : (zextImmediate imm).toNat = imm.toNat % 2 ^ 25 := by
  rw [zextImmediate, BitVec.toNat_setWidth_of_le (by decide), BitVec.toNat_setWidth]

theorem zextImmediate_le (imm : Word) : zextImmediate imm ≤ 0x1FFFFFF#32 := by
  rw [BitVec.le_def, zextImmediate_toNat]
  exact Nat.le_of_lt_succ (Nat.mod_lt _ (by decide))

theorem zextImmediate_of_le {imm : Word} (h : imm ≤ 0x1FFFFFF#32) : zextImmediate imm = imm := by
  have hlt : imm.toNat < 2 ^ 25 := Nat.lt_succ_of_le (BitVec.le_def.1 h)
  apply BitVec.eq_of_toNat_eq
  rw [zextImmediate_toNat, Nat.mod_eq_of_lt hlt]

/-- Settles O26: LOADV ends by writing the zero-extended immediate, which is an immediate of 25 bits itself. -/
theorem loadvLoadsTheZeroExtendedImmediate : Obligations.LoadvLoadsTheZeroExtendedImmediate := by
  refine ⟨fun w hop => (decode_eq_ok_iff w _).2 ⟨hop, rfl, rfl⟩, fun rl imm s => ?_⟩
  obtain ⟨t, ht, hx, hrest⟩ := exec_of_setX_effect (.loadv (s := s) rl imm)
  exact ⟨t, ht, fun hle => hx.trans (zextImmediate_of_le hle), hx ▸ zextImmediate_le imm, hrest⟩

/-! ## The conditional branch -/

theorem exec_loadv_of_le (s : State) (rl : Reg) {imm : Word} (h : imm ≤ 0x1FFFFFF#32) :
    exec (.loadv rl imm) s = .next (s.setX rl imm).advance := by
  have he : Effect s (.loadv rl imm) _ := .loadv rl imm
  rw [zextImmediate_of_le h] at he
  exact exec_of_effect he

/-- A CMOV writes its destination: the source when the condition is not 0, and else what stood there. -/
theorem exec_cmov (s : State) (a b c : Reg) :
    ∃ t, exec (.cmov a b c) s = .next t ∧ t.x a = (if s.x c ≠ 0#32 then s.x b else s.x a) ∧ t.mem = s.mem ∧
      ∀ r, r ≠ a → t.x r = s.x r := by
  by_cases h : s.x c = 0#32
  · exact ⟨_, exec_of_effect (.cmovSkipped a b c h), by simp [h], rfl, fun _ _ => rfl⟩
  · exact ⟨_, exec_of_effect (.cmovTaken a b c h), by simp [h], rfl, fun _ hr => State.setX_x_ne s _ hr⟩

/-- LOADP of segment 0 is a plain jump (R201). -/
theorem exec_loadp_zero {s : State} {b : Reg} (h : s.x b = 0#32) (c : Reg) :
    exec (.loadp b c) s = .next (s.jump (s.x c)) :=
  exec_of_effect (.loadp b c s.mem (by rw [h, Memory.loadProgram_zero]))

/-- Settles O55: each of the four completes, and the distinct registers keep each value until it is read. -/
theorem conditionalBranchIdiomBranches : Obligations.ConditionalBranchIdiomBranches := by
  intro s rz rt ru rc onZero onTrue hz htu htz huz hct hcu hzero htrue
  have h1 := exec_loadv_of_le s rt hzero
  have h2 := exec_loadv_of_le (s.setX rt onZero).advance ru htrue
  obtain ⟨s3, h3, ht, hmem, hkeep⟩ := exec_cmov (((s.setX rt onZero).advance.setX ru onTrue).advance) rt ru rc
  have hz3 : s3.x rz = 0#32 := by
    rw [hkeep rz htz.symm, State.advance_x, State.setX_x_ne _ _ huz.symm, State.advance_x,
      State.setX_x_ne _ _ htz.symm, hz]
  refine ⟨_, _, s3, _, h1, h2, h3, exec_loadp_zero hz3 rt, ?_, hmem⟩
  rw [State.jump_pc, ht]
  simp only [State.advance_x, State.setX_x_self, State.setX_x_ne _ _ hcu, State.setX_x_ne _ _ hct,
    State.setX_x_ne _ _ htu]

end Sys2Proof.Machine
end

section
/-! SUPPORT. IN while the device has nothing, and after it has signalled end of input (46_io.md R189, R191). -/

namespace Sys2Proof.Machine

theorem State.deliver_of_open {s : State} (h : s.input.closed = false) (b : Byte) :
    s.deliver b = s.withInput { s.input with bytes := s.input.bytes ++ [b] } := by
  simp [State.deliver, h, State.withInput]

/-- Settles O49: with nothing unread IN holds; a delivered byte is the unread one, and a closed stream is at its end. -/
theorem heldInputWaitsForTheDevice : Obligations.HeldInputWaitsForTheDevice := by
  intro c s hseen hopen hpos
  have hnone : s.input.bytes[s.input.pos]? = none := List.getElem?_eq_none_iff.2 hpos.ge
  refine ⟨exec_of_effect (.inHold c (InputStream.poll_hold hseen hnone hopen)), fun byte => ?_, fun hp => ?_⟩
  · rw [State.deliver_of_open hopen]
    have hnext : (s.input.bytes ++ [byte])[s.input.pos]? = some byte := by simp [hpos]
    obtain ⟨t, ht, hx, hin, hpc, -⟩ := exec_of_setX_withInput_effect
      (.inByte (s := s.withInput { s.input with bytes := s.input.bytes ++ [byte] }) c byte
        (InputStream.poll_byte hseen hnext))
    exact ⟨t, ht, hx ▸ zextByte_toNat byte, hpc, by rw [hin]; rfl⟩
  · obtain ⟨t, ht, hx, -, hpc, -⟩ := exec_of_setX_withInput_effect
      (.inEof (s := s.closeInput) c (InputStream.poll_end hnone rfl) hp)
    exact ⟨t, ht, hx, hpc⟩

theorem InputStream.signalEof_of_eofSeen {i : InputStream} (h : i.eofSeen = true) : i.signalEof = i := by
  cases i
  simp_all [InputStream.signalEof]

/-- Settles O50: the signal that IN leaves in the stream is all that the next IN polls. -/
theorem endOfInputIsSticky : Obligations.EndOfInputIsSticky := by
  intro c d s t hp hpoll hex u hin hcfg
  obtain ⟨t', ht', -, hsignal, -, -, -, -, -, -, hkeep⟩ := exec_of_setX_withInput_effect (.inEof c hpoll hp)
  cases ht'.symm.trans hex
  have hseen : u.input.eofSeen = true := by rw [hin, hsignal]; rfl
  obtain ⟨v, hv, hx, hstream, -⟩ := exec_of_setX_withInput_effect
    (.inEof d (InputStream.poll_eofSeen hseen) (by rw [hcfg, hkeep, hp]))
  exact ⟨v, hv, hx, hstream.trans (InputStream.signalEof_of_eofSeen hseen)⟩

end Sys2Proof.Machine
end

section
/-! SUPPORT. The condition outputs (43_alu.md R165) and the status port (60_exceptions.md R222). -/

namespace Sys2Proof.Machine

/-- A word is above `2^k − 1` exactly when it has a bit at `k` or above. -/
theorem two_pow_le_toNat_iff (v : Word) (k : Nat) :
    2 ^ k ≤ v.toNat ↔ ∃ i, k ≤ i ∧ i < 32 ∧ v.getLsbD i = true := by
  constructor
  · intro h
    obtain ⟨i, hki, hi⟩ := Nat.exists_ge_and_testBit_of_ge_two_pow h
    exact ⟨i, hki, BitVec.lt_of_getLsbD hi, hi⟩
  · rintro ⟨i, hki, -, hi⟩
    exact (Nat.pow_le_pow_right (by decide) hki).trans (Nat.ge_two_pow_of_testBit hi)

/-- Settles O53: a register above 255 has a bit at 8 or above. -/
theorem conditionOutputsTestRegisterC : Obligations.ConditionOutputsTestRegisterC := fun s c =>
  ⟨decide_eq_true_iff, decide_eq_true_iff.trans (BitVec.lt_def.trans (two_pow_le_toNat_iff (s.x c) 8))⟩

/-- The last of the eight cause codes is 8. -/
theorem FaultKind.code_lt (k : FaultKind) : k.code < 9#4 := by
  cases k <;> decide

/-- Settles O52: the codes are those of the table, case by case. -/
theorem statusPortEncodesTheRunState : Obligations.StatusPortEncodesTheRunState := by
  refine ⟨rfl, rfl, fun _ => rfl, fun r => ?_, rfl, rfl, fun _ => rfl, rfl, rfl, rfl, rfl, rfl, rfl, rfl, rfl,
    fun r => ?_⟩
  · cases r <;> simp [RunState.statusCode]
  · cases r with
    | faulted k => exact k.code_lt
    | running | halted => decide

end Sys2Proof.Machine
end

section
/-! SUPPORT. Reset (10_state.md R45; 70_reset_and_hazards.md R260) and the files the loader refuses (60_exceptions.md R223;
20_memory.md R64). -/

namespace Sys2Proof.Machine

/-- Settles O1: reset is the loaded state of the empty program. -/
theorem resetLeavesRegistersZeroAndOnlySegmentZero : Obligations.ResetLeavesRegistersZeroAndOnlySegmentZero :=
  ⟨State.loaded_x Config.default [] [] true, rfl, rfl, rfl, rfl, State.reset_mapped_iff, rfl, rfl, rfl, rfl, rfl, rfl⟩

/-- Settles O4: the reset input gives a loaded state, which depends on the configuration alone. -/
theorem resetInputDiscardsTheEarlierRun : Obligations.ResetInputDiscardsTheEarlierRun := fun s program bytes closed h =>
  ⟨State.loaded_x s.cfg program bytes closed, rfl, rfl, State.loaded_mapped_iff s.cfg program bytes closed,
    State.loaded_progLen_toNat s.cfg program bytes closed h,
    fun _ _ hw => State.loaded_read s.cfg program bytes closed h hw, rfl, rfl, rfl,
    fun _ hcfg => congrArg (State.loaded · program bytes closed) hcfg⟩

/-- Settles O3: only whole words are read from a file, and their number is then compared with 2^32. -/
theorem loaderRefusesMalformedAndOverlongFiles : Obligations.LoaderRefusesMalformedAndOverlongFiles := by
  intro cfg file bytes closed
  refine ⟨fun hrest => ?_, fun haligned hlong => ?_⟩
  · cases hws : wordsOfFile file with
    | none => simp only [State.boot, hws]
    | some ws =>
      rw [length_of_wordsOfFile hws] at hrest
      exact absurd (Nat.mul_mod_right 4 ws.length) hrest
  · obtain ⟨ws, hws⟩ := exists_wordsOfFile haligned
    rw [length_of_wordsOfFile hws, Nat.mul_div_cancel_left _ (by decide)] at hlong
    simp only [State.boot, hws, if_pos hlong]

end Sys2Proof.Machine

namespace Sys2Proof

/-- Settles O12: each word's opcode and operands stand in its fields. -/
theorem wordsOfTheSpecDecode : Obligations.WordsOfTheSpecDecode := by
  refine ⟨?_, ?_, ?_, ?_, ?_, ?_, ?_, ?_, ?_, rfl⟩ <;>
    exact (decode_eq_ok_iff ..).2 (by simp only [Instr.OperandsIn]; decide)

end Sys2Proof
end
